-- ==== Sys2Proof/Word.lean ====
section
/-! DEFINITION. The one machine word of the block: a byte. Every multi-bit quantity that the spec
adds, compares or counts is a natural number (R10, R115); only the transmitted data are bits. -/

namespace Sys2Proof

/-- A byte is 8 bits, bit 0 the least significant (R10). -/
abbrev Byte := BitVec 8

end Sys2Proof
end

