-- ==== Sys2Proof/Config.lean ====
section
/-! DEFINITION. The implementation parameters of the block (R7, R20, R21), their documented defaults
(R100), the reasons a build is rejected (R101, R102), and the model's one source of free values. -/

namespace Sys2Proof

/-- The two build-time variants (R3, R21). -/
inductive Tier where
  | a   -- synchronous: OUTPUT_SYNC blocks
  | b   -- asynchronous: OUTPUT_ASYNC arms a transfer, CHECK_STATUS polls it
  deriving DecidableEq, Repr

/-- The two address spaces (R50, R51). -/
inductive Space where
  | data    -- the host's read-write memory; the buffer lies here
  | const   -- read-only memory that may hold the gamma table
  deriving DecidableEq, Repr

/-- The TimingProfile (R20): both `tLow` and `tHigh` are HIGH-times, of a "0" and of a "1" bit
(90_conflicts.md C7). `fOut` is informational and read by no rule (R113). -/
structure TimingProfile where
  fOut   : Nat
  tTotal : Nat
  tLow   : Nat
  tHigh  : Nat
  deriving DecidableEq, Repr

/-- The documented defaults: 800 kHz, 44 cycles a bit, 12 high for a "0", 32 high for a "1" (R100). -/
def TimingProfile.default : TimingProfile :=
  { fOut := 800000, tTotal := 44, tLow := 12, tHigh := 32 }

/-- The parameters of R7, all fixed at build time (R8). `fClk` and `resetGapCycles` are read by no
rule (R113, R197). -/
structure Config where
  tier           : Tier
  profile        : TimingProfile
  fClk           : Nat
  addrBits       : Nat
  countBits      : Nat
  gammaSpace     : Space
  resetGapCycles : Nat
  deriving DecidableEq, Repr

/-- The build the model names for `State.reset`. The timing profile is the spec's default (R100); the
other parameters are OPEN in the spec (R7) and their values here are a DESIGN CHOICE (log entry 1),
unsafe only for a claim that starts from `State.reset`. -/
def Config.default : Config :=
  { tier := .a, profile := .default, fClk := 0, addrBits := 16, countBits := 16,
    gammaSpace := .const, resetGapCycles := 0 }

/-- GAMMA_ENTRIES, fixed (R7, R121). -/
def gammaEntries : Nat := 256

/-- Why a build is rejected before any machine exists (R101, R102, R172). -/
inductive ConfigReject where
  | cfgOrder        -- the profile breaks 0 < T_LOW < T_HIGH < T_TOTAL
  | cfgUnresolved   -- no tier, or a clock class with no profile
  deriving DecidableEq, Repr

/-- The model's free values: nothing in Lean can evaluate this constant. `freeValue n k` is value `k`
of draw `n`; the step supplies `n` from the counter `State.draws` (log entries 4 and 5). -/
opaque Config.freeValue : Nat → Nat → Nat

end Sys2Proof
end

