-- ==== Sys2Proof/Syntax.lean ====
section
/-! DEFINITION. The commands of the block: one constructor per row of spec/opcode_table.json (R70). -/

namespace Sys2Proof

/-- A decoded host command (R70, R71). A gamma operand is absent or a table base address (R73); INIT
and CHECK_STATUS have no operands (R74). -/
inductive Instr where
  /-- `ws.init`, INIT (R130). -/
  | wsInit
  /-- `ws.out`, OUTPUT_SYNC, Tier A (R132). -/
  | wsOut (data count : Nat) (gamma : Option Nat)
  /-- `ws.outa`, OUTPUT_ASYNC, Tier B (R150). -/
  | wsOuta (data count : Nat) (gamma : Option Nat)
  /-- `ws.check`, CHECK_STATUS, Tier B (R156). -/
  | wsCheck
  deriving DecidableEq, Repr

end Sys2Proof
end

