-- ==== Sys2Proof/WellFormed.lean ====
section
/-! DEFINITION. What a command must meet to have an encoding in a given build: it is a command of the
build's tier (R72) and each operand fits its field (R71). A count of zero is well formed: it has an
encoding, and the command that carries it faults (R171). -/

namespace Sys2Proof

/-- The commands of each tier (R70, the column "legal when" of R72). -/
def Instr.legalIn : Instr → Tier → Bool
  | .wsInit, _ => true
  | .wsOut .., t => t == .a
  | .wsOuta .., t => t == .b
  | .wsCheck, t => t == .b

/-- The operands of an output command fit `data`, `count` and `gamma` (R71). -/
def operandsFit (c : Config) (data count : Nat) (gamma : Option Nat) : Bool :=
  decide (data < 2 ^ c.addrBits) && decide (count < 2 ^ c.countBits) &&
    decide (gamma.getD 0 < 2 ^ c.addrBits)

/-- Every operand fits its field (R71, R74). -/
def Instr.fits (c : Config) : Instr → Bool
  | .wsInit => true
  | .wsOut data count gamma => operandsFit c data count gamma
  | .wsOuta data count gamma => operandsFit c data count gamma
  | .wsCheck => true

/-- A command of the build `c` that has an encoding there. -/
def Instr.wf (c : Config) (i : Instr) : Bool :=
  i.legalIn c.tier && i.fits c

end Sys2Proof
end

