-- ==== Sys2Proof/Decode.lean ====
section
/-! DEFINITION. The command record (format CMD, R71), its decoder (R72, R76) and its encoder.

A command word is a natural number of `W = 9 + 2*ADDR_BITS + COUNT_BITS` bits, bit 0 the least
significant. The decoder reads bits 0 to W-1 only: the interface has no further bits (log entry 6). -/

namespace Sys2Proof

/-- The width of a command word (R71). -/
def Config.wordBits (c : Config) : Nat := 9 + 2 * c.addrBits + c.countBits

/-- The field of `width` bits of `w` whose lowest bit is bit `lo`, zero-extended (R10). -/
def wordField (w lo width : Nat) : Nat := w / 2 ^ lo % 2 ^ width

/-- `op`, bits 7..0 (R71). -/
def opField (w : Nat) : Nat := wordField w 0 8

/-- `gp`, bit 8 (R71). -/
def gpField (w : Nat) : Nat := wordField w 8 1

/-- `data`, the ADDR_BITS bits above `gp` (R71). -/
def dataField (c : Config) (w : Nat) : Nat := wordField w 9 c.addrBits

/-- `count`, the COUNT_BITS bits above `data` (R71). -/
def countField (c : Config) (w : Nat) : Nat := wordField w (9 + c.addrBits) c.countBits

/-- `gamma`, the ADDR_BITS bits above `count` (R71). -/
def gammaField (c : Config) (w : Nat) : Nat :=
  wordField w (9 + c.addrBits + c.countBits) c.addrBits

/-- The gamma operand: absent when `gp = 0`, whatever the `gamma` field holds (R73). -/
def gammaOperand (c : Config) (w : Nat) : Option Nat :=
  if gpField w = 1 then some (gammaField c w) else none

/-- What a command word decodes to: a command, or an illegal code named by its `op` (R76). -/
inductive Decoded where
  | command (i : Instr)
  | illegal (op : Byte)
  deriving DecidableEq, Repr

/-- The decoder (R72, R76): `op` and TIER choose the command; a reserved code and a code of the other
tier are illegal. Total on every word. -/
def decode (c : Config) (w : Nat) : Decoded :=
  if opField w = 0x01 then .command .wsInit
  else if opField w = 0x02 ∧ c.tier = .a then
    .command (.wsOut (dataField c w) (countField c w) (gammaOperand c w))
  else if opField w = 0x03 ∧ c.tier = .b then
    .command (.wsOuta (dataField c w) (countField c w) (gammaOperand c w))
  else if opField w = 0x04 ∧ c.tier = .b then .command .wsCheck
  else .illegal (BitVec.ofNat 8 (opField w))

/-- The command code of each command (R72). -/
def Instr.opcode : Instr → Nat
  | .wsInit => 0x01
  | .wsOut .. => 0x02
  | .wsOuta .. => 0x03
  | .wsCheck => 0x04

/-- The `gp` bit of a gamma operand (R73, R80). -/
def gpBit (gamma : Option Nat) : Nat := if gamma.isSome then 1 else 0

/-- The five fields packed least significant first (R71); an absent table packs `gamma = 0` (R80). -/
def packFields (c : Config) (op data count : Nat) (gamma : Option Nat) : Nat :=
  op + gpBit gamma * 2 ^ 8 + data * 2 ^ 9 + count * 2 ^ (9 + c.addrBits) +
    gamma.getD 0 * 2 ^ (9 + c.addrBits + c.countBits)

/-- The word of a command; the ignored fields of INIT and CHECK_STATUS are packed as 0 (R74, R80). -/
def encode (c : Config) (i : Instr) : Nat :=
  match i with
  | .wsInit => packFields c i.opcode 0 0 none
  | .wsOut data count gamma => packFields c i.opcode data count gamma
  | .wsOuta data count gamma => packFields c i.opcode data count gamma
  | .wsCheck => packFields c i.opcode 0 0 none

/-- The build that has the command of word `w`: `c` itself unless `w` is illegal there and legal in
the other tier (log entry 2). -/
def Config.selectFor (c : Config) (w : Nat) : Config :=
  match opField w with
  | 0x02 => { c with tier := .a }
  | 0x03 => { c with tier := .b }
  | 0x04 => { c with tier := .b }
  | _ => c

/-- The command the decoder reads from a word of `nbits` bits, in the build that has it (log entry 2). -/
def decodeTableWord (nbits w : Nat) : Option Instr :=
  match decode (Config.default.selectFor (w % 2 ^ nbits)) (w % 2 ^ nbits) with
  | .command i => some i
  | .illegal _ => none

end Sys2Proof
end

