-- ==== Sys2Proof/Machine/State.lean ====
section
/-! DEFINITION. The state of the block (10_state.md), its faults and refusals, and the state after reset
(R35, R190). Plain data throughout. -/

namespace Sys2Proof.Machine

open Sys2Proof

/-- The EngineState (R24). -/
inductive EngineState where
  | idle
  | transferring
  deriving DecidableEq, Repr

/-- What `FAULT` records when it is not `None`: the rows 1 to 6 of R171, each with its info. -/
inductive Raised where
  | illegalCommand (op : Byte)
  | notInitialized
  | initWhileBusy
  | zeroCount
  | unreadable (space : Space) (addr : Nat)
  | writeInFlight (space : Space) (addr : Nat)
  deriving DecidableEq, Repr

/-- A segment of the wire trace (R31): the line idle for a number of cycles the model does not fix, or
the waveform of R109 for a byte list. -/
inductive Segment where
  | gap
  | frame (bytes : List Byte)
  deriving DecidableEq, Repr

/-- A byte location of one of the two spaces. -/
structure Access where
  space : Space
  addr  : Nat
  deriving DecidableEq, Repr

/-- A range of addresses of one space. -/
structure Region where
  space : Space
  base  : Nat
  size  : Nat
  deriving DecidableEq, Repr

/-- The contents of one address space (R50, R51): pairs of an address and a byte, in the canonical form
`Memory.wf` of Machine/Ops.lean. -/
abbrev Memory := List Host.Cell

/-- What the host does to the block and its memory (R16, R64): it issues a command word, and it writes
or reads one byte of memory (R12, R62). -/
inductive HostAction where
  | command (word : Nat)
  | write (space : Space) (addr : Nat) (value : Byte)
  | read (space : Space) (addr : Nat)
  deriving DecidableEq, Repr

/-- One entry of the schedule the model reads: a host step, a slot in which the Tier B engine may take
its step, or a reset (R64, R152, R190). -/
inductive Event where
  | host (action : HostAction)
  | engine
  | reset
  deriving DecidableEq, Repr

/-- The state. The names of 10_state.md stand beside the fields that hold them. -/
@[ext]
structure State where
  /-- TimingProfile, TIER and the other parameters: constant (R20, R21, R8). -/
  cfg       : Config
  /-- The launch memory's readability predicate: the regions that are NOT readable (R54). -/
  holes     : List Region
  /-- `DATA` (R50). -/
  dataMem   : Memory
  /-- `CONST` (R51). -/
  constMem  : Memory
  /-- `INITD` (R23). -/
  initd     : Bool
  /-- `STATE` (R24); constantly idle in Tier A (R25). -/
  engine    : EngineState
  /-- `LINE`, true = high (R26). -/
  line      : Bool
  /-- `FAULT`, `none` = `None` (R27). -/
  fault     : Option Raised
  /-- `XFER_ADDR` (R28). -/
  xferAddr  : Nat
  /-- `XFER_COUNT` (R28). -/
  xferCount : Nat
  /-- `XFER_GAMMA` (R28). -/
  xferGamma : Option Nat
  /-- `SEQ` (R28). -/
  seq       : List Byte
  /-- `BYTE_IDX` (R28). -/
  byteIdx   : Nat
  /-- `BIT_IDX`, 0 = most significant bit (R28). -/
  bitIdx    : Fin 8
  /-- `CYC` (R28). -/
  cyc       : Nat
  /-- `SHIFT` (R28). -/
  shift     : Byte
  /-- `PREFETCH` (R29). -/
  prefetch  : Byte
  /-- `WIRE`, oldest segment first (R31). -/
  wire      : List Segment
  /-- The model's own: every memory read the block has made since reset, oldest first (R55, R60). -/
  reads     : List Access
  /-- The model's own: the byte the latest host step returned to the host, if any (R75, R62). -/
  reply     : Option Byte
  /-- The model's own: what the host, the engine and the reset input do, next first (R64). -/
  inputs    : List Event
  /-- The model's own: how many draws of free values have been taken. -/
  draws     : Nat
  deriving DecidableEq, Repr

/-- Why the machine has no next state. -/
inductive Fault where
  /-- Raised by every step and every command of a machine whose `FAULT` is not `None`: no agent has a
  step (R170). Safe: the stop is the spec's own. -/
  | halted (cause : Raised)
  /-- Raised by a host read or write of an address outside the space: the spec gives a space the
  addresses `0 .. 2^ADDR_BITS - 1` only (R50, R51). Safe: no claim can be proved past it. -/
  | noSuchAddress (space : Space) (addr : Nat)
  deriving DecidableEq, Repr

/-- What the model gives no meaning to. -/
inductive Refusal where
  /-- A command that has no meaning yet; no arm of `exec` answers it. Safe. -/
  | notModelled (mnemonic : String)
  /-- A host write to `CONST`: the spec refuses it and does not model it (R51). Safe. -/
  | constWrite (addr : Nat)
  /-- A step of a machine whose configuration is illegal: the spec rejects the build before any machine
  exists (R101, R172). Safe. -/
  | illegalBuild (reason : ConfigReject)
  deriving DecidableEq, Repr

/-- The machine right after reset (R35, R190): `INITD = 0`, `STATE = Idle`, `FAULT = None`, `WIRE`
empty, memory as launched with nothing listed. The build is `Config.default` (log entry 1). LINE, the
transfer registers and PREFETCH are unspecified by the spec; the zeros are a DESIGN CHOICE (log entry
3), unsafe for a claim that reads them before they are written. -/
def State.reset : State :=
  { cfg := .default, holes := [], dataMem := [], constMem := [],
    initd := false, engine := .idle, line := false, fault := none,
    xferAddr := 0, xferCount := 0, xferGamma := none, seq := [],
    byteIdx := 0, bitIdx := 0, cyc := 0, shift := 0, prefetch := 0,
    wire := [], reads := [], reply := none, inputs := [], draws := 0 }

end Sys2Proof.Machine
end

