-- ==== Sys2Proof/Machine/Ops.lean ====
section
/-! DEFINITION. The named operations over memory and registers: reading and writing a byte, the canonical
form of a memory, readability (R54), raising a fault (R170) and the block's reset (R190). -/

namespace Sys2Proof.Machine

open Sys2Proof

/-! ## Memory -/

/-- What an address that no cell lists reads as. The spec gives memory no contents of its own (R35: the
launch memory), so this is a DESIGN CHOICE, unsafe (log entry 7). -/
def Memory.unlisted : Byte := 0

/-- The byte at `addr`. -/
def Memory.read : Memory → Nat → Byte
  | [], _ => Memory.unlisted
  | (a, v) :: m, addr => if a = addr then v else Memory.read m addr

/-- The memory with `v` at `addr`, in canonical form. -/
def Memory.write : Memory → Nat → Byte → Memory
  | [], addr, v => if v = Memory.unlisted then [] else [(addr, v)]
  | (a, u) :: m, addr, v =>
    if addr < a then
      if v = Memory.unlisted then (a, u) :: m else (addr, v) :: (a, u) :: m
    else if addr = a then
      if v = Memory.unlisted then m else (a, v) :: m
    else (a, u) :: Memory.write m addr v

/-- Every listed address is at least `lo`, and the addresses rise strictly. -/
def Memory.risingFrom (lo : Nat) : Memory → Bool
  | [] => true
  | (a, _) :: m => decide (lo ≤ a) && Memory.risingFrom (a + 1) m

/-- The canonical form: addresses strictly rising, and no cell equal to what an unlisted address reads
as. Equal memories are equal lists. -/
def Memory.wf (m : Memory) : Bool :=
  Memory.risingFrom 0 m && m.all (fun cell => decide (cell.2 ≠ Memory.unlisted))

/-- Every listed address lies below `size`. -/
def Memory.within (size : Nat) (m : Memory) : Bool :=
  m.all (fun cell => decide (cell.1 < size))

/-- The number of addresses of each space (R50, R51). -/
def spaceSize (c : Config) : Nat := 2 ^ c.addrBits

/-- The contents of a space. -/
def State.memory (s : State) : Space → Memory
  | .data => s.dataMem
  | .const => s.constMem

/-- The byte held at a location (R54). -/
def State.readByte (s : State) (space : Space) (addr : Nat) : Byte :=
  Memory.read (s.memory space) addr

/-- The region holds the location. -/
def Region.covers (r : Region) (space : Space) (addr : Nat) : Bool :=
  decide (r.space = space) && decide (r.base ≤ addr) && decide (addr < r.base + r.size)

/-- `readable(space, addr)` (R54): inside the space (R59) and in no hole of the launch memory. -/
def State.readable (s : State) (space : Space) (addr : Nat) : Bool :=
  decide (addr < spaceSize s.cfg) && !s.holes.any (fun r => Region.covers r space addr)

/-- The lowest unreadable address among the `len` addresses from `base` up, if there is one (R59, R174). -/
def firstUnreadable (s : State) (space : Space) (base : Nat) : Nat → Option Nat
  | 0 => none
  | len + 1 =>
    if s.readable space base then firstUnreadable s space (base + 1) len else some base

/-! ## Faults -/

/-- `raise` (R170): `FAULT` takes the fault if it is `None`; every other piece of state stays. -/
def raise (f : Raised) (s : State) : State :=
  match s.fault with
  | none => { s with fault := some f }
  | some _ => s

/-- A step that raises `f`: the fault is recorded, and the machine has no step afterwards (R170, R175). -/
def raised (f : Raised) (s : State) : Host.Outcome State Fault Refusal :=
  .next (raise f s)

/-- Once `FAULT` is not `None`, no agent has a step (R27, R170, R176). -/
def running (s : State) (k : Host.Outcome State Fault Refusal) :
    Host.Outcome State Fault Refusal :=
  match s.fault with
  | none => k
  | some f => .fault (.halted f)

/-- The fault code numbers (R171). -/
def faultCode : Option Raised → Nat
  | none => 0
  | some (.illegalCommand _) => 1
  | some .notInitialized => 2
  | some .initWhileBusy => 3
  | some .zeroCount => 4
  | some (.unreadable _ _) => 5
  | some (.writeInFlight _ _) => 6

/-! ## Reset -/

/-- Free value `k` of the draw that is next. -/
def State.free (s : State) (k : Nat) : Nat := Config.freeValue s.draws k

/-- Reset, the only way out of a fault (R176, R190, R35). The configuration and memory stay. The
registers that R35 leaves unspecified are drawn: each is a free value inside the register's range
(R28), and nothing says which (log entry 4). -/
def resetBlock (s : State) : State :=
  { s with
    initd := false
    engine := .idle
    line := decide (s.free 0 % 2 = 1)
    fault := none
    xferAddr := s.free 1 % spaceSize s.cfg
    xferCount := s.free 2 % 2 ^ s.cfg.countBits
    xferGamma := if s.free 3 % 2 = 1 then some (s.free 4 % spaceSize s.cfg) else none
    seq := (List.range (s.free 2 % 2 ^ s.cfg.countBits)).map (fun i => BitVec.ofNat 8 (s.free (10 + i)))
    byteIdx := s.free 5 % (s.free 2 % 2 ^ s.cfg.countBits + 1)
    bitIdx := Fin.ofNat 8 (s.free 6)
    cyc := s.free 7 % s.cfg.profile.tTotal
    shift := BitVec.ofNat 8 (s.free 8)
    prefetch := BitVec.ofNat 8 (s.free 9)
    wire := []
    reads := []
    reply := none
    draws := s.draws + 1 }

end Sys2Proof.Machine
end

