-- ==== Sys2Proof/Machine/Build.lean ====
section
/-! DEFINITION. The configuration check of a build (R101 to R103, R172) and the machine a build gives. -/

namespace Sys2Proof.Machine

open Sys2Proof

/-- `legal_cfg` (R101). Nothing beyond the ordering is checked (R103). -/
def legalProfile (p : TimingProfile) : Bool :=
  decide (0 < p.tLow) && decide (p.tLow < p.tHigh) && decide (p.tHigh < p.tTotal)

/-- What a build asks for (R3, R7, R102): a tier selector and a clock class may each fail to resolve;
`profile` is the resolved timing profile, the defaults or an override. -/
structure BuildRequest where
  tier           : Option Tier
  profile        : Option TimingProfile
  fClk           : Nat
  addrBits       : Nat
  countBits      : Nat
  gammaSpace     : Space
  resetGapCycles : Nat
  deriving DecidableEq, Repr

/-- The outcome of a build: a configuration, or the reason it is rejected (R101, R102). -/
inductive BuildResult where
  | built (c : Config)
  | rejected (reason : ConfigReject)
  deriving DecidableEq, Repr

/-- The build (R101, R102, R172): an unresolved tier or clock class, or an ordering violation, rejects
it before any machine exists. -/
def build (r : BuildRequest) : BuildResult :=
  match r.tier, r.profile with
  | some t, some p =>
    if legalProfile p then
      .built { tier := t, profile := p, fClk := r.fClk, addrBits := r.addrBits,
               countBits := r.countBits, gammaSpace := r.gammaSpace,
               resetGapCycles := r.resetGapCycles }
    else .rejected .cfgOrder
  | _, _ => .rejected .cfgUnresolved

/-- The machine of build `c` right after reset, over a launch memory (R35): its two spaces and the
regions of it that are not readable (R54). -/
def State.boot (c : Config) (holes : List Region) (dataMem constMem : Memory) : State :=
  { State.reset with cfg := c, holes := holes, dataMem := dataMem, constMem := constMem }

end Sys2Proof.Machine
end

