-- ==== Sys2Proof/Machine/Flags.lean ====
section
/-! DEFINITION. The block has no flags register and no condition codes (R32); this file holds its only
status outputs, the result codes of OUTPUT_ASYNC and CHECK_STATUS (R32, R75). -/

namespace Sys2Proof.Machine

open Sys2Proof

/-- OUTPUT_ASYNC accepted the request: 0x00 (R75). -/
def statusAccepted : Byte := 0x00

/-- CHECK_STATUS found the engine idle: 0x00 (R75). -/
def statusIdle : Byte := 0x00

/-- A transfer is in progress: 0x01, of both commands (R75, R173). -/
def statusBusy : Byte := 0x01

/-- The result of CHECK_STATUS as a function of `STATE` (R156). -/
def engineStatus : EngineState → Byte
  | .idle => statusIdle
  | .transferring => statusBusy

/-- The encoding of `STATE`: Idle = 0, Transferring = 1 (R24). -/
def engineCode : EngineState → Nat
  | .idle => 0
  | .transferring => 1

/-- The command returns a status byte to the host (R75). -/
def withReply (v : Byte) (s : State) : State := { s with reply := some v }

/-- The command returns nothing (R75). -/
def withoutReply (s : State) : State := { s with reply := none }

end Sys2Proof.Machine
end

