-- ==== Sys2Proof/Machine/Operands.lean ====
section
/-! DEFINITION. The operands of an output command: the buffer, the gamma table, the region each tier
must be able to read (R60, R132, R150), the gamma stage (R120 to R125) and the borrowed region (R30). -/

namespace Sys2Proof.Machine

open Sys2Proof

/-- The gamma lookup `G(gamma, v)` (R120, R121): `v` itself when the table is absent, else table entry
`v`, the byte at `gamma + v` of GAMMA_SPACE. -/
def gammaLookup (s : State) (gamma : Option Nat) (v : Byte) : Byte :=
  match gamma with
  | none => v
  | some base => s.readByte s.cfg.gammaSpace (base + v.toNat)

/-- The table read that the lookup of `v` makes (R60). -/
def gammaReads (s : State) (gamma : Option Nat) (v : Byte) : List Access :=
  match gamma with
  | none => []
  | some base => [{ space := s.cfg.gammaSpace, addr := base + v.toNat }]

/-- The bytes to transmit for `n` buffer bytes from `addr` up, each after the gamma stage (R56, R124). -/
def frameBytes (s : State) (gamma : Option Nat) (addr : Nat) : Nat → List Byte
  | 0 => []
  | n + 1 => gammaLookup s gamma (s.readByte .data addr) :: frameBytes s gamma (addr + 1) n

/-- The memory reads that give `frameBytes`, in order: each buffer byte, then its table entry (R60, R132). -/
def frameReads (s : State) (gamma : Option Nat) (addr : Nat) : Nat → List Access
  | 0 => []
  | n + 1 =>
    { space := .data, addr := addr } ::
      (gammaReads s gamma (s.readByte .data addr) ++ frameReads s gamma (addr + 1) n)

/-- Tier A with gamma reads one byte past the buffer (R133); it is not looked up in the table. -/
def trailingReads (gamma : Option Nat) (addr n : Nat) : List Access :=
  match gamma with
  | none => []
  | some _ => [{ space := .data, addr := addr + n }]

/-- How many buffer bytes Tier A must be able to read: N, or N + 1 with gamma (R132, R133). -/
def tierASpan (n : Nat) (gamma : Option Nat) : Nat :=
  match gamma with
  | none => n
  | some _ => n + 1

/-- The table's part of the precondition: all 256 entries readable, else the lowest failing one (R122). -/
def tableFault (s : State) (gamma : Option Nat) : Option Raised :=
  match gamma with
  | none => none
  | some base =>
    (firstUnreadable s s.cfg.gammaSpace base gammaEntries).map (Raised.unreadable s.cfg.gammaSpace)

/-- The `Unreadable` check of an output command over `span` buffer bytes: buffer first, then table, each
at its lowest failing address (R174 item 6, R59). -/
def regionFault (s : State) (addr span : Nat) (gamma : Option Nat) : Option Raised :=
  match firstUnreadable s .data addr span with
  | some a => some (.unreadable .data a)
  | none => tableFault s gamma

/-- An output command is accepted: the request goes into the transfer registers (R28, R132, R151). -/
def loadTransfer (addr n : Nat) (gamma : Option Nat) (s : State) : State :=
  { s with xferAddr := addr, xferCount := n, xferGamma := gamma }

/-- The block's memory reads are recorded in the model's own trace of them. -/
def recordReads (rs : List Access) (s : State) : State := { s with reads := s.reads ++ rs }

/-- A location of the region the latest transfer borrows: its buffer bytes, and the 256 bytes of its
table if it has one (R30). -/
def State.inTransferRegion (s : State) (space : Space) (addr : Nat) : Bool :=
  Region.covers { space := .data, base := s.xferAddr, size := s.xferCount } space addr ||
    match s.xferGamma with
    | none => false
    | some base =>
      Region.covers { space := s.cfg.gammaSpace, base := base, size := gammaEntries } space addr

/-- A borrowed location: in the transfer's region, while `STATE = Transferring` (R30, R62). -/
def State.borrowed (s : State) (space : Space) (addr : Nat) : Bool :=
  decide (s.engine = .transferring) && s.inTransferRegion space addr

end Sys2Proof.Machine
end

