-- ==== Sys2Proof/Machine/Waveform.lean ====
section
/-! DEFINITION. The waveform of a frame in closed form (R104, R105, R109, R110) and its decoding from
pulses (R112). The timer of Machine/Timer.lean emits it cycle by cycle. -/

namespace Sys2Proof.Machine

open Sys2Proof

/-- `thr(b)`, the high-time of a bit of value `b` (R104). -/
def thr (c : Config) (b : Bool) : Nat := if b then c.profile.tHigh else c.profile.tLow

/-- Bit `k` of a byte in the order of transmission, 0 = most significant (R105). -/
def msbBit (v : Byte) (k : Nat) : Bool := v.getLsbD (7 - k)

/-- `bit(s, j)`, frame bit `j` of the byte list (R105). -/
def frameBit (bytes : List Byte) (j : Nat) : Bool := msbBit (bytes.getD (j / 8) 0) (j % 8)

/-- The length of a frame of `n` bytes in cycles (R110). -/
def frameCycles (c : Config) (n : Nat) : Nat := 8 * n * c.profile.tTotal

/-- `level(s, t)`, the line in cycle `t` of the frame (R109). -/
def level (c : Config) (bytes : List Byte) (t : Nat) : Bool :=
  decide (t % c.profile.tTotal < thr c (frameBit bytes (t / c.profile.tTotal)))

/-- The high-times of a byte's eight bit periods in order (R78, R105). -/
def bytePulses (c : Config) (v : Byte) : List Nat :=
  (List.range 8).map (fun k => thr c (msbBit v k))

/-- The pulse list of a frame: the high-time of each bit period in order (R78, R110). -/
def pulses (c : Config) (bytes : List Byte) : List Nat := bytes.flatMap (bytePulses c)

/-- How many cycles of bit period `j` of the frame the line is high, counted on `level`. -/
def highTime (c : Config) (bytes : List Byte) (j : Nat) : Nat :=
  ((List.range c.profile.tTotal).filter (fun k => level c bytes (j * c.profile.tTotal + k))).length

/-- A pulse decodes by its high-time (R112); any other high-time is no bit. -/
def decodePulse (c : Config) (h : Nat) : Option Bool :=
  if h = c.profile.tHigh then some true else if h = c.profile.tLow then some false else none

/-- Eight bits, most significant first, as a byte. -/
def packBits (bits : List Bool) : Byte :=
  BitVec.ofNat 8 (bits.foldl (fun acc b => 2 * acc + (if b then 1 else 0)) 0)

/-- The byte of eight pulses, if each is a bit (R112). -/
def decodeBytePulses (c : Config) (hs : List Nat) : Option Byte :=
  (hs.mapM (decodePulse c)).map packBits

/-- The bytes of a pulse list, eight pulses a byte, most significant bit first (R112); a list whose
length is no multiple of eight is no frame. -/
def decodePulses (c : Config) : List Nat → Option (List Byte)
  | [] => some []
  | h0 :: h1 :: h2 :: h3 :: h4 :: h5 :: h6 :: h7 :: rest =>
    match decodeBytePulses c [h0, h1, h2, h3, h4, h5, h6, h7], decodePulses c rest with
    | some v, some vs => some (v :: vs)
    | _, _ => none
  | _ => none

end Sys2Proof.Machine
end

