-- ==== Sys2Proof/Machine/Timer.lean ====
section
/-! DEFINITION. The cycle-exact bit timer that both tiers use (R106 to R108, R111). -/

namespace Sys2Proof.Machine

open Sys2Proof

/-- `start_frame(seq)` (R107). The frame of an output command has at least one byte. -/
def startFrame (bytes : List Byte) (s : State) : State :=
  { s with seq := bytes, byteIdx := 0, bitIdx := 0, cyc := 0, shift := bytes.headD 0 }

/-- `emit(seq)` appends a gap and the frame to the wire trace (R31). -/
def emitFrame (bytes : List Byte) (s : State) : State :=
  { s with wire := s.wire ++ [.gap, .frame bytes] }

/-- `end_frame()`: the engine is done, and in Tier B the transfer completes (R111, R154). In Tier A the
engine is idle already (R25). The line is low because the last cycle of a bit period is (R104). -/
def endFrame (s : State) : State := { s with engine := .idle }

/-- The bit being emitted, `SHIFT[7 - BIT_IDX]` (R106). -/
def State.currentBit (s : State) : Bool := msbBit s.shift s.bitIdx.val

/-- The timer moves to the next byte, or ends the frame after the last (R107). -/
def nextByte (s : State) : State :=
  match s.seq[s.byteIdx + 1]? with
  | some v => { s with byteIdx := s.byteIdx + 1, shift := v }
  | none => endFrame { s with byteIdx := s.byteIdx + 1 }

/-- The timer moves past the cycle it has emitted (R107). -/
def advance (s : State) : State :=
  if s.cyc + 1 < s.cfg.profile.tTotal then { s with cyc := s.cyc + 1 }
  else if s.bitIdx.val < 7 then { s with cyc := 0, bitIdx := s.bitIdx + 1 }
  else nextByte { s with cyc := 0, bitIdx := 0 }

/-- `timer_cycle()` (R107): the line takes the level of this cycle (R106) and the position advances;
enabled while `BYTE_IDX < N`. -/
def timerCycle (s : State) : State :=
  if s.byteIdx < s.seq.length then
    advance { s with line := decide (s.cyc < thr s.cfg s.currentBit) }
  else s

/-- `n` cycles of `f`. -/
def repeatCycle (f : State → State) : Nat → State → State
  | 0, s => s
  | n + 1, s => repeatCycle f n (f s)

end Sys2Proof.Machine
end

