-- ==== Sys2Proof/Machine/Init.lean ====
section
/-! DEFINITION. INIT, of both tiers (R130, R131). -/

namespace Sys2Proof.Machine

open Sys2Proof

/-- INIT (R130): the line idles low and the block is initialized; a Tier B transfer in flight makes it
fault. That the idle level is low is PRESUMED (log entry 8, the spec's K1). -/
def execWsInit (s : State) : Host.Outcome State Fault Refusal :=
  running s
    (if s.cfg.tier = .b ∧ s.engine = .transferring then raised .initWhileBusy s
     else .next (withoutReply { s with line := false, initd := true }))

end Sys2Proof.Machine
end

