-- ==== Sys2Proof/Machine/TierA.lean ====
section
/-! DEFINITION. Tier A: OUTPUT_SYNC emits one frame in one host step (R132 to R137). -/

namespace Sys2Proof.Machine

open Sys2Proof

/-- Tier A's pipelined lookup (R29): with gamma, while byte `i` is emitted PREFETCH holds the raw byte at
offset `i + 1`; during the last byte that is the byte at offset N, which is never transmitted. -/
def prefetchNext (s : State) : State :=
  match s.xferGamma with
  | none => s
  | some _ =>
    if s.byteIdx < s.seq.length then
      { s with prefetch := s.readByte .data (s.xferAddr + s.byteIdx + 1) }
    else s

/-- One cycle of the blocking emission. -/
def syncCycle (s : State) : State := prefetchNext (timerCycle s)

/-- The start of the blocking emission: registers loaded, reads made, frame started and recorded (R132). -/
def syncStart (addr n : Nat) (gamma : Option Nat) (s : State) : State :=
  prefetchNext
    (emitFrame (frameBytes s gamma addr n)
      (startFrame (frameBytes s gamma addr n)
        (recordReads (frameReads s gamma addr n ++ trailingReads gamma addr n)
          (loadTransfer addr n gamma s))))

/-- The blocking emission: the start, then all `8 * N * T_TOTAL` cycles (R110, R132, R134). -/
def emitBlocking (addr n : Nat) (gamma : Option Nat) (s : State) : State :=
  repeatCycle syncCycle (frameCycles s.cfg n) (syncStart addr n gamma s)

/-- OUTPUT_SYNC (R132): the checks in the order of R174, then the frame, as one atomic host step. -/
def execWsOut (data count : Nat) (gamma : Option Nat) (s : State) :
    Host.Outcome State Fault Refusal :=
  running s
    (if s.cfg.tier ≠ .a then raised (.illegalCommand 0x02) s
     else if s.initd = false then raised .notInitialized s
     else if count = 0 then raised .zeroCount s
     else
      match regionFault s data (tierASpan count gamma) gamma with
      | some f => raised f s
      | none => .next (withoutReply (emitBlocking data count gamma s)))

end Sys2Proof.Machine
end

