-- ==== Sys2Proof/Machine/TierB.lean ====
section
/-! DEFINITION. Tier B: OUTPUT_ASYNC arms a transfer, the engine emits it cycle by cycle, CHECK_STATUS polls
it (R150 to R160). -/

namespace Sys2Proof.Machine

open Sys2Proof

/-- `arm(data, N, gamma)` (R151): all reads are made now, the frame is started and recorded, and the
engine is transferring. -/
def armTransfer (addr n : Nat) (gamma : Option Nat) (s : State) : State :=
  { emitFrame (frameBytes s gamma addr n)
      (startFrame (frameBytes s gamma addr n)
        (recordReads (frameReads s gamma addr n) (loadTransfer addr n gamma s))) with
    engine := .transferring }

/-- OUTPUT_ASYNC (R150): the checks in the order of R174; Busy changes nothing and reads nothing. -/
def execWsOuta (data count : Nat) (gamma : Option Nat) (s : State) :
    Host.Outcome State Fault Refusal :=
  running s
    (if s.cfg.tier ≠ .b then raised (.illegalCommand 0x03) s
     else if s.initd = false then raised .notInitialized s
     else if count = 0 then raised .zeroCount s
     else if s.engine = .transferring then .next (withReply statusBusy s)
     else
      match regionFault s data count gamma with
      | some f => raised f s
      | none => .next (withReply statusAccepted (armTransfer data count gamma s)))

/-- CHECK_STATUS (R156): the status of the engine; no state is written. -/
def execWsCheck (s : State) : Host.Outcome State Fault Refusal :=
  running s
    (if s.cfg.tier ≠ .b then raised (.illegalCommand 0x04) s
     else if s.initd = false then raised .notInitialized s
     else .next (withReply (engineStatus s.engine) s))

/-- The engine agent has a step (R152). -/
def State.engineEnabled (s : State) : Bool :=
  decide (s.cfg.tier = .b) && decide (s.engine = .transferring) &&
    decide (s.byteIdx < s.xferCount) && decide (s.fault = none)

/-- A slot of the schedule in which the engine takes its step, one timer cycle, if it has one (R152). -/
def engineSlot (s : State) : State := if s.engineEnabled then timerCycle s else s

end Sys2Proof.Machine
end

