-- ==== Sys2Proof/Machine/Dispatch.lean ====
section
/-! DEFINITION. The meaning of each command, one arm per constructor of `Instr`. -/

namespace Sys2Proof.Machine

open Sys2Proof

def exec (i : Instr) (s : State) : Host.Outcome State Fault Refusal :=
  match i with
  | .wsInit => Sys2Proof.Machine.execWsInit s
  | .wsOut data count gamma => Sys2Proof.Machine.execWsOut data count gamma s
  | .wsOuta data count gamma => Sys2Proof.Machine.execWsOuta data count gamma s
  | .wsCheck => Sys2Proof.Machine.execWsCheck s

end Sys2Proof.Machine
end

