-- ==== Sys2Proof/Machine/Agents.lean ====
section
/-! DEFINITION. The agents (R180): what a host step, an engine slot and a reset do, and how the next one
is taken from the schedule `State.inputs`. Any interleaving is some schedule (R64, R152, R155). -/

namespace Sys2Proof.Machine

open Sys2Proof

/-- The host issues a command word: it is decoded for the build's tier and run; an illegal code faults
before any other check (R72, R174). -/
def hostCommand (w : Nat) (s : State) : Host.Outcome State Fault Refusal :=
  match decode s.cfg w with
  | .command i => exec i s
  | .illegal op => raised (.illegalCommand op) s

/-- The host stores a byte in `DATA`. -/
def storeData (addr : Nat) (v : Byte) (s : State) : State :=
  { s with dataMem := Memory.write s.dataMem addr v }

/-- A host write (R62): to a borrowed byte it faults, anywhere else in `DATA` it writes. A write to
`CONST` is refused (R51). -/
def hostWrite (space : Space) (addr : Nat) (v : Byte) (s : State) :
    Host.Outcome State Fault Refusal :=
  match space with
  | .const => .refused (.constWrite addr)
  | .data =>
    if spaceSize s.cfg ≤ addr then .fault (.noSuchAddress .data addr)
    else if s.borrowed .data addr then raised (.writeInFlight .data addr) s
    else .next (storeData addr v s)

/-- A host read (R62): it returns the byte the memory holds, borrowed or not. Of an address that is not
readable the spec gives the host no value, so the read returns a free one (log entry 5). -/
def hostRead (space : Space) (addr : Nat) (s : State) : Host.Outcome State Fault Refusal :=
  if spaceSize s.cfg ≤ addr then .fault (.noSuchAddress space addr)
  else if s.readable space addr then .next (withReply (s.readByte space addr) s)
  else .next (withReply (BitVec.ofNat 8 (s.free 0)) { s with draws := s.draws + 1 })

/-- One host step; what an earlier step returned is no longer there. -/
def hostStep (a : HostAction) (s : State) : Host.Outcome State Fault Refusal :=
  match a with
  | .command w => hostCommand w (withoutReply s)
  | .write space addr v => hostWrite space addr v (withoutReply s)
  | .read space addr => hostRead space addr (withoutReply s)

/-- The event is taken off the schedule. -/
def takeEvent (rest : List Event) (s : State) : State := { s with inputs := rest }

/-- One step of the machine: the next event of the schedule. With none left, the engine runs to the end
of its transfer (R155), and after that the block waits for the host (R191). -/
def agentStep (s : State) : Host.Outcome State Fault Refusal :=
  match s.inputs with
  | [] => running s (.next (engineSlot s))
  | .engine :: rest => running s (.next (engineSlot (takeEvent rest s)))
  | .host a :: rest => running s (hostStep a (takeEvent rest s))
  | .reset :: rest => .next (resetBlock (takeEvent rest s))

/-- No machine exists with an illegal configuration (R101), so none has a step. -/
def buildStep (s : State) : Host.Outcome State Fault Refusal :=
  if legalProfile s.cfg.profile then agentStep s
  else .refused (.illegalBuild .cfgOrder)

/-- The machine whose very next step is the host's command of word `w`, in the build that has the
command (log entry 2). -/
def placeCommand (s : State) (nbits w : Nat) : State :=
  { s with cfg := s.cfg.selectFor (w % 2 ^ nbits),
           inputs := .host (.command (w % 2 ^ nbits)) :: s.inputs }

end Sys2Proof.Machine
end

