-- ==== Sys2Proof/Machine/Step.lean ====
section
/-! DEFINITION. The step of the machine, and the placing of one command for it. -/

namespace Sys2Proof.Machine

open Sys2Proof

/-- One step (Machine/Agents.lean). -/
def step (s : State) : Host.Outcome State Fault Refusal := buildStep s

/-- `s` with the command of word `w` as its next event (Machine/Agents.lean, log entry 2). -/
def State.withFetchWord (s : State) (nbits w : Nat) : State := placeCommand s nbits w

end Sys2Proof.Machine
end

