-- ==== Sys2Proof/Machine/Asm.lean ====
section
/-! DEFINITION. The assembly syntax of the commands (R80), the pseudo-instructions (R81) and the word a
line assembles to. Host code around the commands has no encoding (R82). -/

namespace Sys2Proof.Machine

open Sys2Proof

/-- The `<gamma>` operand as written: a number, or the word `none` (R80). -/
inductive GammaArg where
  | table (base : Nat)
  | absent
  deriving DecidableEq, Repr

/-- One line of assembly (R80). An output line may leave its gamma operand out (R81). A status goes
into the host variable `dest`, which the word does not encode. -/
inductive AsmLine where
  | init
  | out (data count : Nat) (gamma : Option GammaArg)
  | outa (dest : List Char) (data count : Nat) (gamma : Option GammaArg)
  | check (dest : List Char)
  deriving DecidableEq, Repr

/-- The expansion of the two pseudo-instructions (R81); every other line stands for itself. -/
def AsmLine.expand : AsmLine → AsmLine
  | .init => .init
  | .out data count none => .out data count (some .absent)
  | .out data count (some g) => .out data count (some g)
  | .outa dest data count none => .outa dest data count (some .absent)
  | .outa dest data count (some g) => .outa dest data count (some g)
  | .check dest => .check dest

/-- The gamma operand of the command (R80): `none`, or left out, is an absent table. -/
def asmGamma : Option GammaArg → Option Nat
  | some (.table base) => some base
  | some .absent => none
  | none => none

/-- The command a line stands for (R80, R81). -/
def AsmLine.command : AsmLine → Instr
  | .init => .wsInit
  | .out data count gamma => .wsOut data count (asmGamma gamma)
  | .outa _ data count gamma => .wsOuta data count (asmGamma gamma)
  | .check _ => .wsCheck

/-- The word of a line, if its numbers fit their fields (R71, R80). -/
def assemble (c : Config) (line : AsmLine) : Option Nat :=
  if line.command.fits c then some (encode c line.command) else none

/-! ## Text -/

/-- A blank between the words of a line. -/
def isBlank (ch : Char) : Bool := decide (ch = ' ') || decide (ch = '\t')

/-- The text without blanks at either end. -/
def trimBlanks (cs : List Char) : List Char :=
  ((cs.dropWhile isBlank).reverse.dropWhile isBlank).reverse

/-- The text cut at every comma, blanks trimmed. -/
def splitOperands (cs : List Char) : List (List Char) :=
  (cs.splitOn ',').map trimBlanks

/-- The value of a digit of the base. -/
def digitValue (base : Nat) (ch : Char) : Option Nat :=
  let v := if '0' ≤ ch ∧ ch ≤ '9' then ch.toNat - 48
    else if 'a' ≤ ch ∧ ch ≤ 'f' then ch.toNat - 87
    else if 'A' ≤ ch ∧ ch ≤ 'F' then ch.toNat - 55
    else base
  if v < base then some v else none

/-- The value of a row of digits, at least one. -/
def digitsValue (base : Nat) (cs : List Char) : Option Nat :=
  if cs.isEmpty then none
  else (cs.mapM (digitValue base)).map (List.foldl (fun acc d => base * acc + d) 0)

/-- A number: `0x` hexadecimal, `0b` binary, otherwise decimal (R10). -/
def parseNumber : List Char → Option Nat
  | '0' :: 'x' :: cs => digitsValue 16 cs
  | '0' :: 'b' :: cs => digitsValue 2 cs
  | cs => digitsValue 10 cs

/-- The `<gamma>` operand (R80). -/
def parseGamma (cs : List Char) : Option GammaArg :=
  if cs = ['n', 'o', 'n', 'e'] then some .absent else (parseNumber cs).map .table

/-- The buffer operands of an output line, with or without its gamma operand (R80, R81). -/
def parseBuffer : List (List Char) → Option (Nat × Nat × Option GammaArg)
  | [d, n] => do return (← parseNumber d, ← parseNumber n, none)
  | [d, n, g] => do return (← parseNumber d, ← parseNumber n, some (← parseGamma g))
  | _ => none

/-- The name of a host variable: at least one character. -/
def parseDest (cs : List Char) : Option (List Char) := if cs.isEmpty then none else some cs

/-- The line of a mnemonic and its operands (R80). -/
def parseCommand (mnemonic : List Char) (operands : List (List Char)) : Option AsmLine :=
  if mnemonic = ['w', 's', '.', 'i', 'n', 'i', 't'] then
    if operands = [[]] then some .init else none
  else if mnemonic = ['w', 's', '.', 'o', 'u', 't'] then
    (parseBuffer operands).map (fun b => .out b.1 b.2.1 b.2.2)
  else if mnemonic = ['w', 's', '.', 'o', 'u', 't', 'a'] then
    match operands with
    | dest :: buffer => do
      let dest ← parseDest dest
      let b ← parseBuffer buffer
      return .outa dest b.1 b.2.1 b.2.2
    | [] => none
  else if mnemonic = ['w', 's', '.', 'c', 'h', 'e', 'c', 'k'] then
    match operands with
    | [dest] => (parseDest dest).map .check
    | _ => none
  else none

/-- One line of text: a semicolon starts a comment (R80). -/
def parseLine (text : List Char) : Option AsmLine :=
  let code := trimBlanks (text.takeWhile (fun ch => decide (ch ≠ ';')))
  parseCommand (code.takeWhile (fun ch => !isBlank ch))
    (splitOperands (code.dropWhile (fun ch => !isBlank ch)))

end Sys2Proof.Machine
end

