-- ==== Sys2Proof/Safety.lean ====
section
/-! DEFINITION. What counts as a good state and a successful end, in the terms the claims use: the
invariant of the machine, the end of a run (R199), and the engine's place in its frame. -/

namespace Sys2Proof.Machine

open Sys2Proof

/-- The cycles of the current frame that the timer has emitted (R107). -/
def framePosition (s : State) : Nat :=
  (8 * s.byteIdx + s.bitIdx.val) * s.cfg.profile.tTotal + s.cyc

/-- What holds while a Tier B transfer is in flight. -/
structure State.TransferOk (s : State) : Prop where
  /-- It was armed after INIT (R150). -/
  initialized : s.initd = true
  /-- The engine has a byte to emit, and SHIFT holds it (R28). -/
  byteLeft : s.byteIdx < s.xferCount
  shiftHolds : s.seq[s.byteIdx]? = some s.shift
  /-- Buffer and table lie inside their spaces (R59, R122). -/
  bufferInside : s.xferAddr + s.xferCount ≤ spaceSize s.cfg
  tableInside : ∀ base, s.xferGamma = some base → base + gammaEntries ≤ spaceSize s.cfg
  /-- The bytes read at arm time are what the borrowed region holds throughout the transfer (R65). -/
  bytesHeld : s.seq = frameBytes s s.xferGamma s.xferAddr s.xferCount
  /-- The frame in flight is the last of the wire trace (R151). -/
  recorded : s.wire.getLast? = some (.frame s.seq)

/-- The invariant that every step keeps. -/
structure State.Inv (s : State) : Prop where
  /-- The build is legal (R101). -/
  legal : legalProfile s.cfg.profile = true
  /-- The memories are in canonical form and inside their spaces (R50, R51). -/
  dataWf : Memory.wf s.dataMem = true
  constWf : Memory.wf s.constMem = true
  dataInside : Memory.within (spaceSize s.cfg) s.dataMem = true
  constInside : Memory.within (spaceSize s.cfg) s.constMem = true
  /-- Tier A keeps no engine state (R25). -/
  tierAIdle : s.cfg.tier = .a → s.engine = .idle
  /-- The transfer registers are inside their ranges (R28, R115). -/
  addrFits : s.xferAddr < spaceSize s.cfg
  countFits : s.xferCount < 2 ^ s.cfg.countBits
  gammaFits : ∀ base, s.xferGamma = some base → base < spaceSize s.cfg
  seqLength : s.seq.length = s.xferCount
  byteInside : s.byteIdx ≤ s.xferCount
  cycInside : s.cyc < s.cfg.profile.tTotal
  /-- After INIT the line is low whenever no frame is being emitted (R111, R130). -/
  idleLow : s.initd = true → s.engine = .idle → s.line = false
  /-- What holds while a transfer is in flight. -/
  transfer : s.engine = .transferring → s.TransferOk

/-- An event of the schedule that is a host step. -/
def Event.isHost : Event → Bool
  | .host _ => true
  | .engine => false
  | .reset => false

/-- A successful end of a run (R199): no fault, no host step left, the engine idle. R199 speaks of commands, and
program P5 shows that a pending host write counts too; that a pending host read counts, and that a pending
reset or engine slot does not, is a DESIGN CHOICE (log entry 29). -/
def State.ended (s : State) : Bool :=
  decide (s.fault = none) && !s.inputs.any Event.isHost && decide (s.engine = .idle)

/-- The buffer bytes an output command of this tier must be able to read are readable: N of them, and
in Tier A one more with gamma (R60, R193). -/
def State.bufferReadable (s : State) (data count : Nat) (gamma : Option Nat) : Prop :=
  (∀ i, i < count → s.readable .data (data + i) = true) ∧
    (s.cfg.tier = .a → gamma ≠ none → s.readable .data (data + count) = true)

/-- All 256 table bytes are readable, if there is a table (R122). -/
def State.tableReadable (s : State) (gamma : Option Nat) : Prop :=
  ∀ base, gamma = some base → ∀ v, v < gammaEntries →
    s.readable s.cfg.gammaSpace (base + v) = true

/-- What the step answers, with `f` applied to the next state. -/
def mapNext (f : State → State) : Host.Outcome State Fault Refusal → Host.Outcome State Fault Refusal
  | .next s => .next (f s)
  | .fault r => .fault r
  | .refused r => .refused r

/-- The state with other values of the three parameters that no rule reads (R113, R197). -/
def State.withUnread (fOut fClk resetGapCycles : Nat) (s : State) : State :=
  { s with cfg := { s.cfg with
      profile := { s.cfg.profile with fOut := fOut }
      fClk := fClk
      resetGapCycles := resetGapCycles } }

end Sys2Proof.Machine
end

