-- ==== Sys2Proof/Certificates/Slice0/Obligations.lean ====
section
/-! DEFINITION. The statements about the block, for the provers. Each docstring names the rule of spec/ it
formalises. A premise `s.fault = none` is the spec's own: a faulted machine has no step (R170). -/

open Sys2Proof Sys2Proof.Machine

/-! ## Commands -/

/-- INIT's encoding (any other field values), its syntax, its fault, and its effect: LINE and INITD are
written, nothing is returned, and nothing else changes (WIRE included). That the line idles low is the
spec's general knowledge, not its source (K1; log entry 8). -/
def Obligations.InitFollowsItsRule : Prop :=
  (∀ c w, opField w = 0x01 → decode c w = .command .wsInit) ∧
  ((parseLine ['w', 's', '.', 'i', 'n', 'i', 't']).map AsmLine.command = some .wsInit) ∧
  (∀ s : State, s.fault = none → s.cfg.tier = .b → s.engine = .transferring →
    exec .wsInit s = .next { s with fault := some .initWhileBusy }) ∧
  (∀ s : State, s.fault = none → ¬ (s.cfg.tier = .b ∧ s.engine = .transferring) →
    exec .wsInit s = .next { s with line := false, initd := true, reply := none })

/-- From any state in which INIT does not fault, INIT; INIT ends in the same state as INIT (the spec
derives this, R131, from INIT's rule). -/
def Obligations.InitIsIdempotent : Prop :=
  ∀ s : State, s.fault = none → ¬ (s.cfg.tier = .b ∧ s.engine = .transferring) →
    ∃ t, exec .wsInit s = .next t ∧ t.fault = none ∧ exec .wsInit t = .next t

/-- OUTPUT_SYNC runs to completion whenever its preconditions hold, and this is its whole effect: the
frame of the buffer's bytes after the gamma stage is on the wire, the line is low, the engine is
done, the transfer registers hold the request, PREFETCH holds the byte past the buffer if there is a
table, and nothing else changes: no memory byte, no configuration, no INITD. -/
def Obligations.OutputSyncEmitsOneFrame : Prop :=
  ∀ (s : State) (data count : Nat) (gamma : Option Nat),
    s.fault = none → legalProfile s.cfg.profile = true → s.cfg.tier = .a → s.initd = true →
    count ≠ 0 → s.bufferReadable data count gamma → s.tableReadable gamma →
    exec (.wsOut data count gamma) s = .next { s with
      xferAddr := data, xferCount := count, xferGamma := gamma
      seq := frameBytes s gamma data count
      byteIdx := count, bitIdx := 0, cyc := 0
      shift := (frameBytes s gamma data count).getLastD 0
      prefetch := if gamma = none then s.prefetch else s.readByte .data (data + count)
      line := false, engine := .idle
      wire := s.wire ++ [.gap, .frame (frameBytes s gamma data count)]
      reads := s.reads ++ (frameReads s gamma data count ++ trailingReads gamma data count)
      reply := none }

/-- OUTPUT_ASYNC in state Idle is accepted whenever its preconditions hold, whether or not a CHECK_STATUS
has seen an earlier transfer's end, and this is its whole effect: the frame is started at its first
cycle and recorded, STATE is Transferring, the status 0 is returned, and nothing else changes. -/
def Obligations.OutputAsyncArmsTransfer : Prop :=
  ∀ (s : State) (data count : Nat) (gamma : Option Nat),
    s.fault = none → s.cfg.tier = .b → s.initd = true → s.engine = .idle →
    count ≠ 0 → s.bufferReadable data count gamma → s.tableReadable gamma →
    exec (.wsOuta data count gamma) s = .next { s with
      xferAddr := data, xferCount := count, xferGamma := gamma
      seq := frameBytes s gamma data count
      byteIdx := 0, bitIdx := 0, cyc := 0
      shift := gammaLookup s gamma (s.readByte .data data)
      engine := .transferring
      wire := s.wire ++ [.gap, .frame (frameBytes s gamma data count)]
      reads := s.reads ++ frameReads s gamma data count
      reply := some 0x00 }

/-- OUTPUT_ASYNC while a transfer is in flight returns 1, whatever its buffer and table, and changes
nothing and reads nothing. -/
def Obligations.BusyOutputChangesNothing : Prop :=
  ∀ (s : State) (data count : Nat) (gamma : Option Nat),
    s.fault = none → s.cfg.tier = .b → s.initd = true → count ≠ 0 → s.engine = .transferring →
    exec (.wsOuta data count gamma) s = .next { s with reply := some 0x01 }

/-- CHECK_STATUS runs in every initialized Tier B state, returns 1 while transferring and 0 while idle,
and writes no state. -/
def Obligations.CheckStatusReportsEngine : Prop :=
  ∀ s : State, s.fault = none → s.cfg.tier = .b → s.initd = true →
    (s.engine = .transferring → exec .wsCheck s = .next { s with reply := some 0x01 }) ∧
    (s.engine = .idle → exec .wsCheck s = .next { s with reply := some 0x00 })

/-- The bytes of a frame are the buffer's bytes in increasing address order, each replaced by its table
entry if there is a table. -/
def Obligations.FrameBytesAreGammaOfBuffer : Prop :=
  ∀ (s : State) (gamma : Option Nat) (data count : Nat),
    (frameBytes s gamma data count).length = count ∧
    ∀ i, i < count → (frameBytes s gamma data count)[i]? =
      some (match gamma with
        | none => s.readByte .data (data + i)
        | some base => s.readByte s.cfg.gammaSpace (base + (s.readByte .data (data + i)).toNat))

/-- The spec's derived laws of the gamma stage (R126): an identity table gives the bytes of no table, and a table of 0xFF gives 0xFF only. -/
def Obligations.GammaIdentityAndConstantTables : Prop :=
  (∀ (s : State) (base data count : Nat),
    (∀ v : Byte, s.readByte s.cfg.gammaSpace (base + v.toNat) = v) →
    frameBytes s (some base) data count = frameBytes s none data count) ∧
  (∀ (s : State) (base data count : Nat),
    (∀ v : Byte, s.readByte s.cfg.gammaSpace (base + v.toNat) = 0xFF) →
    frameBytes s (some base) data count = List.replicate count 0xFF)

/-- Tier A with gamma: the byte past the buffer goes into PREFETCH and nowhere else. With another value there
(outside the table) the command ends in the same state, WIRE, LINE, SHIFT, SEQ and the reads among it, but
for PREFETCH and the byte itself. -/
def Obligations.TrailingByteIsNeverTransmitted : Prop :=
  ∀ (s : State) (data count base : Nat) (v : Byte),
    s.fault = none → legalProfile s.cfg.profile = true → s.cfg.tier = .a → s.initd = true →
    count ≠ 0 → s.bufferReadable data count (some base) → s.tableReadable (some base) →
    Memory.wf s.dataMem = true →
    (s.cfg.gammaSpace = .const ∨ data + count < base ∨ base + gammaEntries ≤ data + count) →
    ∃ t, exec (.wsOut data count (some base)) s = .next t ∧
      exec (.wsOut data count (some base)) (storeData (data + count) v s) =
        .next { t with prefetch := v, dataMem := Memory.write s.dataMem (data + count) v }

/-- While byte `i` of a Tier A frame with gamma is emitted, PREFETCH holds the raw byte at offset
`i + 1`. -/
def Obligations.PrefetchRunsOneByteAhead : Prop :=
  ∀ (s : State) (data count base k : Nat), legalProfile s.cfg.profile = true →
    k < frameCycles s.cfg count →
    (repeatCycle syncCycle k (syncStart data count (some base) s)).byteIdx =
        k / (8 * s.cfg.profile.tTotal) ∧
      (repeatCycle syncCycle k (syncStart data count (some base) s)).prefetch =
        s.readByte .data (data + k / (8 * s.cfg.profile.tTotal) + 1)

/-- The memory bytes each output command reads: Tier A reads one buffer byte more with gamma; Tier B does
not; a Busy result reads none, whatever its operands. Which bytes is R60's; the order is that of the
pseudocode of R132 and R151; the record `reads` that shows both is the model's own (log entry 11). -/
def Obligations.OutputsReadExactlyTheirBytes : Prop :=
  (∀ (s : State) (data count : Nat) (gamma : Option Nat),
    s.fault = none → legalProfile s.cfg.profile = true → s.initd = true → count ≠ 0 →
    s.bufferReadable data count gamma → s.tableReadable gamma →
    let bufferAndTable : List Access := (List.range count).flatMap (fun i =>
      { space := .data, addr := data + i } :: gamma.toList.map (fun base =>
        { space := s.cfg.gammaSpace, addr := base + (s.readByte .data (data + i)).toNat }))
    (s.cfg.tier = .a → gamma = none → ∃ t, exec (.wsOut data count gamma) s = .next t ∧
      t.reads = s.reads ++ bufferAndTable) ∧
    (s.cfg.tier = .a → gamma ≠ none → ∃ t, exec (.wsOut data count gamma) s = .next t ∧
      t.reads = s.reads ++ (bufferAndTable ++ [{ space := .data, addr := data + count }])) ∧
    (s.cfg.tier = .b → s.engine = .idle → ∃ t, exec (.wsOuta data count gamma) s = .next t ∧
      t.reads = s.reads ++ bufferAndTable)) ∧
  (∀ (s : State) (data count : Nat) (gamma : Option Nat),
    s.fault = none → s.initd = true → count ≠ 0 → s.cfg.tier = .b → s.engine = .transferring →
    ∃ t, exec (.wsOuta data count gamma) s = .next t ∧ t.reads = s.reads)

/-- R75: the status results. An accepted output returns 0 and a Busy one 1; CHECK_STATUS returns 0 when
idle and 1 when busy; a command returns nothing else, and INIT and OUTPUT_SYNC return nothing. -/
def Obligations.StatusResultsAreZeroOrOne : Prop :=
  ∀ (s t : State) (w : Nat) (rest : List Event), s.fault = none →
    s.inputs = .host (.command w) :: rest → step s = .next t →
    (t.reply = none ∨ t.reply = some 0x00 ∨ t.reply = some 0x01) ∧
    (decode s.cfg w = .command .wsInit → t.reply = none) ∧
    (∀ data count gamma, decode s.cfg w = .command (.wsOut data count gamma) → t.reply = none) ∧
    (∀ data count gamma, decode s.cfg w = .command (.wsOuta data count gamma) → t.fault = none →
      (s.engine = .idle → t.reply = some 0x00) ∧ (s.engine = .transferring → t.reply = some 0x01)) ∧
    (decode s.cfg w = .command .wsCheck → t.fault = none →
      (s.engine = .idle → t.reply = some 0x00) ∧ (s.engine = .transferring → t.reply = some 0x01))

/-- What no command writes, and what each leaves alone when it answers a next state: every byte of both
memories, the configuration, the readability of memory and the schedule, for all four commands;
INITD but for INIT; LINE and PREFETCH for OUTPUT_ASYNC; everything but LINE, INITD, FAULT and the
reply for INIT; everything but FAULT and the reply for CHECK_STATUS. -/
def Obligations.CommandFrames : Prop :=
  ∀ (i : Instr) (s t : State), exec i s = .next t →
    (∀ space a, t.readByte space a = s.readByte space a) ∧
    t.cfg = s.cfg ∧ t.holes = s.holes ∧ t.inputs = s.inputs ∧ t.draws = s.draws ∧
    (i ≠ .wsInit → t.initd = s.initd) ∧
    (∀ data count gamma, i = .wsOuta data count gamma →
      t.line = s.line ∧ t.prefetch = s.prefetch) ∧
    (i = .wsInit → t = { s with line := t.line, initd := t.initd, fault := t.fault,
                                reply := t.reply }) ∧
    (i = .wsCheck → t = { s with fault := t.fault, reply := t.reply })

/-! ## Faults -/

/-- R174: which fault a command raises, in the order of the rule's six items, and what a host write is
checked for. -/
def Obligations.FaultPriorityOrder : Prop :=
  (∀ (s : State) (w : Nat) (op : Byte), s.fault = none → decode s.cfg w = .illegal op →
    hostCommand w s = .next { s with fault := some (.illegalCommand op) }) ∧
  (∀ s : State, s.fault = none → s.initd = false →
    (s.cfg.tier = .a → ∀ data count gamma,
      exec (.wsOut data count gamma) s = .next { s with fault := some .notInitialized }) ∧
    (s.cfg.tier = .b → (∀ data count gamma,
      exec (.wsOuta data count gamma) s = .next { s with fault := some .notInitialized }) ∧
      exec .wsCheck s = .next { s with fault := some .notInitialized })) ∧
  (∀ s : State, s.fault = none → s.cfg.tier = .b → s.engine = .transferring →
    exec .wsInit s = .next { s with fault := some .initWhileBusy }) ∧
  (∀ (s : State) data gamma, s.fault = none → s.initd = true →
    (s.cfg.tier = .a → exec (.wsOut data 0 gamma) s = .next { s with fault := some .zeroCount }) ∧
    (s.cfg.tier = .b → exec (.wsOuta data 0 gamma) s = .next { s with fault := some .zeroCount })) ∧
  (∀ (s : State) data count gamma, s.fault = none → s.initd = true → s.cfg.tier = .b → count ≠ 0 →
    s.engine = .transferring →
    exec (.wsOuta data count gamma) s = .next { s with reply := some 0x01 }) ∧
  (∀ (s : State) data count gamma k, s.fault = none → s.initd = true → s.cfg.tier = .a →
    count ≠ 0 → (k < count ∨ (k = count ∧ gamma ≠ none)) →
    (∀ i, i < k → s.readable .data (data + i) = true) → s.readable .data (data + k) = false →
    exec (.wsOut data count gamma) s =
      .next { s with fault := some (.unreadable .data (data + k)) }) ∧
  (∀ (s : State) data count gamma k, s.fault = none → s.initd = true → s.cfg.tier = .b →
    s.engine = .idle → count ≠ 0 → k < count →
    (∀ i, i < k → s.readable .data (data + i) = true) → s.readable .data (data + k) = false →
    exec (.wsOuta data count gamma) s =
      .next { s with fault := some (.unreadable .data (data + k)) }) ∧
  (∀ (s : State) data count base k, s.fault = none → s.initd = true → count ≠ 0 →
    s.bufferReadable data count (some base) → k < gammaEntries →
    (∀ v, v < k → s.readable s.cfg.gammaSpace (base + v) = true) →
    s.readable s.cfg.gammaSpace (base + k) = false →
    (s.cfg.tier = .a → exec (.wsOut data count (some base)) s =
      .next { s with fault := some (.unreadable s.cfg.gammaSpace (base + k)) }) ∧
    (s.cfg.tier = .b → s.engine = .idle → exec (.wsOuta data count (some base)) s =
      .next { s with fault := some (.unreadable s.cfg.gammaSpace (base + k)) })) ∧
  (∀ (s : State) addr v, s.fault = none → addr < spaceSize s.cfg →
    (s.borrowed .data addr = true → hostWrite .data addr v s =
      .next { s with fault := some (.writeInFlight .data addr) }) ∧
    (s.borrowed .data addr = false → hostWrite .data addr v s =
      .next { s with dataMem := Memory.write s.dataMem addr v }))

/-- R170: raising a fault writes FAULT if it is None and nothing else; afterwards no agent has a step; a
faulted state is no successful end; a step that faults leaves every other piece of the block's state
as it was and returns nothing to the host; only reset clears a fault. -/
def Obligations.RaiseRecordsAndStops : Prop :=
  (∀ (f : Raised) (s : State), s.fault = none → raise f s = { s with fault := some f }) ∧
  (∀ (f g : Raised) (s : State), s.fault = some g → raise f s = s) ∧
  (∀ (g : Raised) (s : State), s.fault = some g → legalProfile s.cfg.profile = true →
    (∀ rest, s.inputs ≠ .reset :: rest) → step s = .fault (.halted g)) ∧
  (∀ (g : Raised) (s : State), s.fault = some g → s.ended = false) ∧
  (∀ s t : State, s.fault = none → step s = .next t → t.fault ≠ none →
    ∃ rest, t = { s with fault := t.fault, inputs := rest, reply := none }) ∧
  (∀ (g : Raised) (s : State) (rest : List Event), s.fault = some g →
    legalProfile s.cfg.profile = true → s.inputs = .reset :: rest →
    ∃ t, step s = .next t ∧ t.fault = none)

/-- A command that faults has written nothing but FAULT: in particular nothing to the wire trace. -/
def Obligations.FaultingCommandsWriteOnlyFault : Prop :=
  ∀ (i : Instr) (s t : State) (f : Raised), exec i s = .next t → t.fault = some f →
    t = { s with fault := some f }

/-- No command runs in a faulted state, so no second fault is recorded. -/
def Obligations.NoCommandLeavesFault : Prop :=
  ∀ (i : Instr) (s : State) (f : Raised), s.fault = some f → exec i s = .fault (.halted f)

/-- No address wraps: a buffer or a table that runs past the end of its space faults at the first
address outside it, if all of it that is inside is readable. -/
def Obligations.NoAddressWraps : Prop :=
  ∀ (s : State) (data count : Nat) (gamma : Option Nat),
    s.fault = none → s.initd = true → count ≠ 0 → data ≤ spaceSize s.cfg →
    (∀ a, data ≤ a → a < spaceSize s.cfg → s.readable .data a = true) →
    (s.cfg.tier = .a → gamma = none → spaceSize s.cfg < data + count →
      exec (.wsOut data count gamma) s =
        .next { s with fault := some (.unreadable .data (spaceSize s.cfg)) }) ∧
    (s.cfg.tier = .a → gamma ≠ none → spaceSize s.cfg < data + count + 1 →
      exec (.wsOut data count gamma) s =
        .next { s with fault := some (.unreadable .data (spaceSize s.cfg)) }) ∧
    (s.cfg.tier = .b → s.engine = .idle → spaceSize s.cfg < data + count →
      exec (.wsOuta data count gamma) s =
        .next { s with fault := some (.unreadable .data (spaceSize s.cfg)) }) ∧
    (∀ base, gamma = some base → base ≤ spaceSize s.cfg →
      spaceSize s.cfg < base + gammaEntries →
      (∀ a, base ≤ a → a < spaceSize s.cfg → s.readable s.cfg.gammaSpace a = true) →
      (s.cfg.tier = .a → data + count < spaceSize s.cfg → exec (.wsOut data count gamma) s =
        .next { s with fault := some (.unreadable s.cfg.gammaSpace (spaceSize s.cfg)) }) ∧
      (s.cfg.tier = .b → s.engine = .idle → data + count ≤ spaceSize s.cfg →
        exec (.wsOuta data count gamma) s =
          .next { s with fault := some (.unreadable s.cfg.gammaSpace (spaceSize s.cfg)) }))

/-! ## Encoding -/

/-- R72: the command codes. An illegal code faults before any other check and changes no other state. -/
def Obligations.CommandCodeTable : Prop :=
  (∀ c w, opField w = 0x01 → decode c w = .command .wsInit) ∧
  (∀ c w, opField w = 0x02 → c.tier = .a →
    decode c w = .command (.wsOut (dataField c w) (countField c w) (gammaOperand c w))) ∧
  (∀ c w, opField w = 0x03 → c.tier = .b →
    decode c w = .command (.wsOuta (dataField c w) (countField c w) (gammaOperand c w))) ∧
  (∀ c w, opField w = 0x04 → c.tier = .b → decode c w = .command .wsCheck) ∧
  (∀ c w, opField w = 0x00 ∨ (opField w = 0x02 ∧ c.tier = .b) ∨
      ((opField w = 0x03 ∨ opField w = 0x04) ∧ c.tier = .a) ∨ 0x05 ≤ opField w →
    decode c w = .illegal (BitVec.ofNat 8 (opField w)) ∧
    ∀ s : State, s.cfg = c → s.fault = none →
      hostCommand w s = .next { s with fault := some (.illegalCommand (BitVec.ofNat 8 (opField w))) })

/-- Every well-formed command of every build fits a word and is what its word decodes to. -/
def Obligations.DecodeOfEncodeIsTheCommand : Prop :=
  ∀ (c : Config) (i : Instr), i.wf c = true →
    encode c i < 2 ^ c.wordBits ∧ decode c (encode c i) = .command i

/-- No bit of an output command's word is dropped: with a table, encoding what the decoder reads gives
the word back; without one, it gives the word back but for the ignored `gamma` field. -/
def Obligations.EncodeOfDecodeIsTheWord : Prop :=
  ∀ (c : Config) (w : Nat) (i : Instr), w < 2 ^ c.wordBits → decode c w = .command i →
    i.wf c = true ∧
    (gpField w = 1 → i ≠ .wsInit → i ≠ .wsCheck → encode c i = w) ∧
    (gpField w = 0 → i ≠ .wsInit → i ≠ .wsCheck →
      encode c i = w % 2 ^ (9 + c.addrBits + c.countBits))

/-- The decoder is total (R76, which the spec derives from the format and the code table): every word decodes to a command or to an illegal code named by its `op`, and `op` and TIER alone
choose which. -/
def Obligations.DecoderIsTotalOnOpAndTier : Prop :=
  (∀ c w, (∃ i, decode c w = .command i ∧ i.opcode = opField w) ∨
    decode c w = .illegal (BitVec.ofNat 8 (opField w))) ∧
  (∀ c c' w w', opField w = opField w' → c.tier = c'.tier →
    ((∃ i, decode c w = .command i) ↔ ∃ i, decode c' w' = .command i))

/-- R74: any value of the other fields decodes to the same INIT, and to the same CHECK_STATUS. -/
def Obligations.OperandFreeCommandsIgnoreFields : Prop :=
  ∀ c w w', opField w = opField w' → (opField w = 0x01 ∨ opField w = 0x04) →
    decode c w = decode c w'

/-- When `gp = 0` the gamma field is ignored, and when `gp = 1` it is the table's address. -/
def Obligations.AbsentGammaIgnoresItsField : Prop :=
  (∀ c w w', w % 2 ^ (9 + c.addrBits + c.countBits) = w' % 2 ^ (9 + c.addrBits + c.countBits) →
    gpField w = 0 → decode c w = decode c w') ∧
  (∀ c w, gpField w = 1 → gammaOperand c w = some (gammaField c w)) ∧
  (∀ c w, gpField w = 0 → gammaOperand c w = none)

/-- Every word that 95_test_vectors.md writes out (addresses and counts of 16 bits) decodes as it says there, in
each tier that it gives a meaning for. -/
def Obligations.SpecWordsDecode : Prop :=
  let a : Config := { Config.default with tier := .a }
  let b : Config := { Config.default with tier := .b }
  (decode a 0x000000000000001 = .command .wsInit ∧
    decode b 0x000000000000001 = .command .wsInit ∧
    decode a 0x1FFFFFFFFFFFF01 = .command .wsInit ∧
    decode b 0x1FFFFFFFFFFFF01 = .command .wsInit) ∧
  (decode a 0x000000006020002 = .command (.wsOut 0x0100 3 none) ∧
    decode a 0x000000002020002 = .command (.wsOut 0x0100 1 none) ∧
    decode a 0x000000000020002 = .command (.wsOut 0x0100 0 none) ∧
    decode a 0x000000003FFFE02 = .command (.wsOut 0xFFFF 1 none) ∧
    decode a 0x000000003FFFF02 = .command (.wsOut 0xFFFF 1 (some 0x0000)) ∧
    decode a 0x008000004040102 = .command (.wsOut 0x0200 2 (some 0x0400))) ∧
  (decode b 0x000000004060003 = .command (.wsOuta 0x0300 2 none) ∧
    decode b 0x000000002062003 = .command (.wsOuta 0x0310 1 none) ∧
    decode b 0x000000000060003 = .command (.wsOuta 0x0300 0 none)) ∧
  decode b 0x000000000000004 = .command .wsCheck ∧
  (decode a 0x000000000000000 = .illegal 0x00 ∧ decode b 0x000000000000000 = .illegal 0x00 ∧
    decode b 0x000000006020002 = .illegal 0x02 ∧ decode a 0x000000004060003 = .illegal 0x03 ∧
    decode a 0x000000000000004 = .illegal 0x04 ∧
    decode a 0x000000000000005 = .illegal 0x05 ∧ decode b 0x000000000000005 = .illegal 0x05 ∧
    decode a 0x0000000000000FF = .illegal 0xFF ∧ decode b 0x0000000000000FF = .illegal 0xFF)

/-- R81: the two pseudo-instructions, and that there are no others. -/
def Obligations.PseudoInstructionsExpand : Prop :=
  (∀ data count, (AsmLine.out data count none).expand = .out data count (some .absent)) ∧
  (∀ dest data count,
    (AsmLine.outa dest data count none).expand = .outa dest data count (some .absent)) ∧
  (∀ line : AsmLine, (∀ data count, line ≠ .out data count none) →
    (∀ dest data count, line ≠ .outa dest data count none) → line.expand = line) ∧
  (∀ line : AsmLine, line.expand.command = line.command)

/-- A line that assembles gives a word that decodes, in a build of the right tier, to its command. -/
def Obligations.AssembledLinesDecode : Prop :=
  ∀ (c : Config) (line : AsmLine) (w : Nat), assemble c line = some w →
    line.command.legalIn c.tier = true → decode c w = .command line.command

/-! ## The machine's step -/

/-- A step runs the next event of the schedule: a command word is decoded and run, an illegal one
faults, a host write and a host read are `hostWrite` and `hostRead`, an engine slot is the engine's step,
and with no event left the engine runs on. The schedule's form, and that the engine then runs on, are the
model's choice (log entry 9), as are the reply's clearing (log entry 10) and, in the last clause, the placed
command and the tier that `withFetchWord` selects for it (log entry 2). -/
def Obligations.StepRunsTheNextEvent : Prop :=
  (∀ (s : State) w rest i, legalProfile s.cfg.profile = true → s.fault = none →
    s.inputs = .host (.command w) :: rest → decode s.cfg w = .command i →
    step s = exec i { s with inputs := rest, reply := none }) ∧
  (∀ (s : State) w rest op, legalProfile s.cfg.profile = true → s.fault = none →
    s.inputs = .host (.command w) :: rest → decode s.cfg w = .illegal op →
    step s = .next { s with inputs := rest, reply := none, fault := some (.illegalCommand op) }) ∧
  (∀ (s : State) space addr v rest, legalProfile s.cfg.profile = true → s.fault = none →
    s.inputs = .host (.write space addr v) :: rest →
    step s = hostWrite space addr v { s with inputs := rest, reply := none }) ∧
  (∀ (s : State) space addr rest, legalProfile s.cfg.profile = true → s.fault = none →
    s.inputs = .host (.read space addr) :: rest →
    step s = hostRead space addr { s with inputs := rest, reply := none }) ∧
  (∀ (s : State) rest, legalProfile s.cfg.profile = true → s.fault = none →
    s.inputs = .engine :: rest → step s = .next (engineSlot { s with inputs := rest })) ∧
  (∀ s : State, legalProfile s.cfg.profile = true → s.fault = none →
    s.inputs = [] → step s = .next (engineSlot s)) ∧
  (∀ (s : State) nbits w i, legalProfile s.cfg.profile = true → s.fault = none →
    decode (s.cfg.selectFor (w % 2 ^ nbits)) (w % 2 ^ nbits) = .command i →
    step (s.withFetchWord nbits w) =
      exec i { s with cfg := s.cfg.selectFor (w % 2 ^ nbits), reply := none })

/-- Every step keeps the invariant, from every state that meets it. -/
def Obligations.StepKeepsTheInvariant : Prop :=
  ∀ s t : State, s.Inv → step s = .next t → t.Inv

/-- The state after reset meets the invariant, for every legal build over every launch memory in
canonical form; so does the model's own reset state. -/
def Obligations.ResetMeetsTheInvariant : Prop :=
  State.reset.Inv ∧
  ∀ (c : Config) (holes : List Region) (dataMem constMem : Memory),
    legalProfile c.profile = true → Memory.wf dataMem = true → Memory.wf constMem = true →
    Memory.within (spaceSize c) dataMem = true → Memory.within (spaceSize c) constMem = true →
    (State.boot c holes dataMem constMem).Inv

/-- R190: reset, in every state, the faulted ones among them. The registers the rule leaves unspecified
are not named; the launch memory and the configuration stay. -/
def Obligations.ResetSetsTheSpecifiedValues : Prop :=
  (∀ (s : State) (rest : List Event), legalProfile s.cfg.profile = true →
    s.inputs = .reset :: rest →
    ∃ t, step s = .next t ∧ t.initd = false ∧ t.engine = .idle ∧ t.fault = none ∧ t.wire = [] ∧
      t.cfg = s.cfg ∧ t.holes = s.holes ∧ t.dataMem = s.dataMem ∧ t.constMem = s.constMem) ∧
  (∀ (c : Config) (holes : List Region) (dataMem constMem : Memory),
    let t := State.boot c holes dataMem constMem
    t.initd = false ∧ t.engine = .idle ∧ t.fault = none ∧ t.wire = [] ∧ t.cfg = c ∧
      t.dataMem = dataMem ∧ t.constMem = constMem)

/-- R8: no step changes a build-time constant; the timing ones have the documented defaults. -/
def Obligations.ConfigurationIsConstant : Prop :=
  (∀ s t : State, step s = .next t → t.cfg = s.cfg) ∧
  TimingProfile.default = { fOut := 800000, tTotal := 44, tLow := 12, tHigh := 32 }

/-- F_OUT, F_CLK and RESET_GAP_CYCLES are read by no rule: other values of them change no step. -/
def Obligations.UnreadParametersHaveNoEffect : Prop :=
  ∀ (s : State) (fOut fClk resetGapCycles : Nat),
    step (s.withUnread fOut fClk resetGapCycles) =
      mapNext (State.withUnread fOut fClk resetGapCycles) (step s)

/-- The block writes no memory: a step leaves every byte of CONST and DATA as it was, but for the one
byte of DATA that a host write stores to. -/
def Obligations.OnlyHostWritesChangeMemory : Prop :=
  ∀ s t : State, Memory.wf s.dataMem = true → step s = .next t →
    (∀ a, t.readByte .const a = s.readByte .const a) ∧
    (∀ a, t.readByte .data a = s.readByte .data a ∨
      ∃ v rest, s.inputs = .host (.write .data a v) :: rest ∧ t.readByte .data a = v)

/-- The wire trace only grows: a step that is no reset leaves it, or appends a gap and one frame, and
then it is the step of an output command. -/
def Obligations.WireTraceOnlyGrows : Prop :=
  ∀ s t : State, (∀ rest, s.inputs ≠ .reset :: rest) → step s = .next t →
    t.wire = s.wire ∨
      ∃ w rest data count gamma, s.inputs = .host (.command w) :: rest ∧
        (decode s.cfg w = .command (.wsOut data count gamma) ∨
          decode s.cfg w = .command (.wsOuta data count gamma)) ∧
        t.wire = s.wire ++ [.gap, .frame (frameBytes s gamma data count)]

/-- INITD is written by INIT and by reset only. -/
def Obligations.OnlyInitAndResetWriteInitd : Prop :=
  ∀ s t : State, step s = .next t → t.initd ≠ s.initd →
    (∃ w rest, s.inputs = .host (.command w) :: rest ∧ decode s.cfg w = .command .wsInit ∧
      t.initd = true) ∨
    (∃ rest, s.inputs = .reset :: rest ∧ t.initd = false)

/-- A machine with no fault, no event left and an idle engine has ended its run (R199) and waits for the host
(R191). That the model then still has a step, which answers the same state, is its own choice (log entry 9). -/
def Obligations.RestingMachineWaits : Prop :=
  ∀ s : State, legalProfile s.cfg.profile = true → s.fault = none → s.inputs = [] →
    s.engine = .idle → step s = .next s ∧ s.ended = true

/-! ## Engine and waveform -/

/-- The Tier B engine has a step exactly when the spec says; the step is one timer cycle; it reads no
memory, and writes only STATE, LINE and the engine's position and shift registers. -/
def Obligations.EngineStepReadsNoMemory : Prop :=
  (∀ s : State, s.cfg.tier = .b → s.engine = .transferring → s.byteIdx < s.xferCount →
    s.fault = none → engineSlot s = timerCycle s) ∧
  (∀ s : State, ¬ (s.cfg.tier = .b ∧ s.engine = .transferring ∧ s.byteIdx < s.xferCount ∧
    s.fault = none) → engineSlot s = s) ∧
  (∀ s : State, engineSlot s = { s with
    engine := (engineSlot s).engine, line := (engineSlot s).line
    byteIdx := (engineSlot s).byteIdx, bitIdx := (engineSlot s).bitIdx
    cyc := (engineSlot s).cyc, shift := (engineSlot s).shift }) ∧
  (∀ (s : State) (dataMem constMem : Memory),
    engineSlot { s with dataMem := dataMem, constMem := constMem } =
      { engineSlot s with dataMem := dataMem, constMem := constMem })

/-- The timer emits the closed form: cycle `k` of a frame leaves the line at `level(s, k)`, and after
`k + 1` cycles the position is byte, bit and cycle of `k + 1`. -/
def Obligations.TimerEmitsTheWaveform : Prop :=
  ∀ (s : State) (bytes : List Byte) (k : Nat), legalProfile s.cfg.profile = true →
    k < frameCycles s.cfg bytes.length →
    let t := repeatCycle timerCycle (k + 1) (startFrame bytes s)
    t.line = level s.cfg bytes k ∧
      t.cyc = (k + 1) % s.cfg.profile.tTotal ∧
      t.bitIdx.val = (k + 1) / s.cfg.profile.tTotal % 8 ∧
      t.byteIdx = (k + 1) / s.cfg.profile.tTotal / 8

/-- The engine's step follows the waveform from wherever in its frame it stands: from position `k` it leaves the
line at the closed form's level of cycle `k` of the transmitted bytes, at position `k + 1`. The next event is an
engine slot, or none is left (log entry 9). -/
def Obligations.EngineStepFollowsTheWaveform : Prop :=
  ∀ s t : State, s.Inv → s.engineEnabled = true →
    (s.inputs = [] ∨ ∃ rest, s.inputs = .engine :: rest) → step s = .next t →
    t.line = level s.cfg s.seq (framePosition s) ∧
      framePosition t = framePosition s + 1 ∧ t.seq = s.seq

/-- Both tiers put the same waveform of the same bytes on the line: in cycle `k` of a Tier A emission, and
in the engine's step `k` of a Tier B transfer, the line is the closed form's level of that cycle. -/
def Obligations.BothTiersEmitTheSameWaveform : Prop :=
  ∀ (s : State) (data count k : Nat) (gamma : Option Nat), legalProfile s.cfg.profile = true →
    k < frameCycles s.cfg count →
    (repeatCycle syncCycle (k + 1) (syncStart data count gamma s)).line =
        level s.cfg (frameBytes s gamma data count) k ∧
      (s.cfg.tier = .b → s.fault = none →
        (repeatCycle engineSlot (k + 1) (armTransfer data count gamma s)).line =
          level s.cfg (frameBytes s gamma data count) k)

/-- Frame length (R110, which the spec derives from the timer): a frame of N bytes has 8N pulses and lasts `8 * N * T_TOTAL` cycles, no fewer; pulse j is high
for `thr(bit(s, j))` cycles of its period; a 3-byte frame has 24 pulses and 1056 cycles by default. -/
def Obligations.FrameLengthAndPulses : Prop :=
  (∀ (c : Config) (bytes : List Byte), legalProfile c.profile = true →
    (pulses c bytes).length = 8 * bytes.length ∧
    ∀ j, j < 8 * bytes.length →
      (pulses c bytes)[j]? = some (thr c (frameBit bytes j)) ∧
      highTime c bytes j = thr c (frameBit bytes j) ∧
      ∀ k, k < c.profile.tTotal →
        level c bytes (j * c.profile.tTotal + k) = decide (k < thr c (frameBit bytes j))) ∧
  (∀ (s : State) (bytes : List Byte) (k : Nat), legalProfile s.cfg.profile = true → bytes ≠ [] →
    ((repeatCycle timerCycle k (startFrame bytes s)).byteIdx = bytes.length ↔
      8 * bytes.length * s.cfg.profile.tTotal ≤ k)) ∧
  (∀ b0 b1 b2 : Byte, (pulses Config.default [b0, b1, b2]).length = 24 ∧
    frameCycles Config.default 3 = 1056)

/-- Bit fidelity (R112, which the spec derives from the bit order): a pulse decodes by its high-time, and the pulses of a frame decode to its bytes. -/
def Obligations.PulsesDecodeToTheBytes : Prop :=
  ∀ c : Config, legalProfile c.profile = true →
    decodePulse c c.profile.tHigh = some true ∧ decodePulse c c.profile.tLow = some false ∧
    ∀ bytes : List Byte, decodePulses c (pulses c bytes) = some bytes

/-- R104: the high-times, and that the rest of the period is at least one cycle. -/
def Obligations.HighTimesLeaveALowTime : Prop :=
  ∀ c : Config, legalProfile c.profile = true →
    thr c false = c.profile.tLow ∧ thr c true = c.profile.tHigh ∧
    ∀ b, 1 ≤ c.profile.tTotal - thr c b ∧ thr c b < c.profile.tTotal

/-- R154: the engine step of the frame's last cycle, and no other, makes STATE Idle; after it the engine
has no step, and only an accepted OUTPUT_ASYNC makes STATE Transferring again. -/
def Obligations.TransferCompletesInItsLastCycle : Prop :=
  (∀ s : State, s.Inv → s.engineEnabled = true →
    (framePosition s + 1 = frameCycles s.cfg s.xferCount →
      (engineSlot s).engine = .idle ∧ (engineSlot s).engineEnabled = false) ∧
    (framePosition s + 1 ≠ frameCycles s.cfg s.xferCount →
      (engineSlot s).engine = .transferring)) ∧
  (∀ s : State, s.engine = .idle → s.engineEnabled = false) ∧
  (∀ s t : State, s.engine = .idle → step s = .next t → t.engine = .transferring →
    ∃ w rest data count gamma, s.inputs = .host (.command w) :: rest ∧
      decode s.cfg w = .command (.wsOuta data count gamma) ∧ t.reply = some 0x00)

/-- R158: the transitions of STATE, each row and no others (reset apart). -/
def Obligations.EngineStateTransitions : Prop :=
  (∀ (s : State) data count gamma, s.fault = none → s.cfg.tier = .b → s.initd = true →
    count ≠ 0 → s.bufferReadable data count gamma → s.tableReadable gamma →
    s.engine = .idle → ∃ t, exec (.wsOuta data count gamma) s = .next t ∧
      t.engine = .transferring ∧ t.reply = some 0x00) ∧
  (∀ (s : State) data count gamma, s.fault = none → s.cfg.tier = .b → s.initd = true →
    count ≠ 0 → s.engine = .transferring →
    exec (.wsOuta data count gamma) s = .next { s with reply := some 0x01 }) ∧
  (∀ s : State, s.Inv → s.engineEnabled = true →
    framePosition s + 1 = frameCycles s.cfg s.xferCount → (engineSlot s).engine = .idle) ∧
  (∀ s : State, s.fault = none → s.cfg.tier = .b → s.initd = true →
    (s.engine = .idle → exec .wsCheck s = .next { s with reply := some 0x00 }) ∧
    (s.engine = .transferring → exec .wsCheck s = .next { s with reply := some 0x01 })) ∧
  (∀ s : State, s.fault = none → s.cfg.tier = .b →
    (s.engine = .idle → ∃ t, exec .wsInit s = .next t ∧ t.fault = none ∧ t.engine = .idle ∧
      t.reply = none) ∧
    (s.engine = .transferring →
      exec .wsInit s = .next { s with fault := some .initWhileBusy })) ∧
  (∀ s t : State, s.Inv → (∀ rest, s.inputs ≠ .reset :: rest) → step s = .next t →
    t.engine ≠ s.engine →
    (s.engine = .idle ∧ t.engine = .transferring ∧ t.reply = some 0x00 ∧
      ∃ w rest data count gamma, s.inputs = .host (.command w) :: rest ∧
        decode s.cfg w = .command (.wsOuta data count gamma)) ∨
    (s.engine = .transferring ∧ t.engine = .idle ∧ s.engineEnabled = true ∧
      framePosition s + 1 = frameCycles s.cfg s.xferCount ∧
      (s.inputs = [] ∨ ∃ rest, s.inputs = .engine :: rest))) ∧
  State.reset.engine = .idle

/-- An armed transfer completes: with no event left, the engine reaches Idle after exactly the cycles
its frame has left, with the frame still on the wire trace and the line low. That steps with no event left
are the engine's is the model's form of the spec's fairness (log entry 9). -/
def Obligations.ArmedTransferCompletes : Prop :=
  ∀ s : State, s.Inv → s.fault = none → s.cfg.tier = .b → s.engine = .transferring →
    s.inputs = [] →
    (∀ k, framePosition s + k < frameCycles s.cfg s.xferCount →
      ∃ t, core.run k s = .next t ∧ t.engine = .transferring) ∧
    ∃ t, core.run (frameCycles s.cfg s.xferCount - framePosition s) s = .next t ∧
      t.engine = .idle ∧ t.line = false ∧ t.wire = s.wire ∧ t.ended = true

/-! ## The host and memory -/

/-- R62: while a transfer is in flight, a host write to a byte of the buffer or of a table in DATA
faults; a host read of a readable byte of the buffer or of the table, in whichever space, returns its value; a
host write elsewhere in DATA is made. -/
def Obligations.BorrowedRegionIsProtected : Prop :=
  ∀ (s : State) (addr : Nat) (rest : List Event),
    legalProfile s.cfg.profile = true → s.fault = none → s.engine = .transferring →
    addr < spaceSize s.cfg →
    (∀ v, s.inputs = .host (.write .data addr v) :: rest →
      ((s.xferAddr ≤ addr ∧ addr < s.xferAddr + s.xferCount) ∨
        (s.cfg.gammaSpace = .data ∧
          ∃ base, s.xferGamma = some base ∧ base ≤ addr ∧ addr < base + 256) →
        step s = .next { s with inputs := rest, reply := none,
                                fault := some (.writeInFlight .data addr) }) ∧
      (¬ ((s.xferAddr ≤ addr ∧ addr < s.xferAddr + s.xferCount) ∨
        (s.cfg.gammaSpace = .data ∧
          ∃ base, s.xferGamma = some base ∧ base ≤ addr ∧ addr < base + 256)) →
        step s = .next { s with inputs := rest, reply := none,
                                dataMem := Memory.write s.dataMem addr v })) ∧
    (∀ space, s.inputs = .host (.read space addr) :: rest → s.readable space addr = true →
      ((space = .data ∧ s.xferAddr ≤ addr ∧ addr < s.xferAddr + s.xferCount) ∨
        (space = s.cfg.gammaSpace ∧
          ∃ base, s.xferGamma = some base ∧ base ≤ addr ∧ addr < base + 256)) →
      step s = .next { s with inputs := rest, reply := some (s.readByte space addr) })

/-- Host accesses in every state of the engine, an idle one and Tier A too. A read of a readable byte returns it
and changes no state of the block; a write to a byte of DATA that is not borrowed is made and changes nothing
else, and while the engine is idle no byte is borrowed. The rest are the model's choices: the host reads CONST too
and writes unreadable bytes of DATA (log entry 14), a read of an unreadable byte returns some byte (log entry 5),
an address outside the space stops (log entry 13), a write to CONST is refused (log entry 15). -/
def Obligations.HostReadsAndWritesMemory : Prop :=
  (∀ (s : State) space addr rest, legalProfile s.cfg.profile = true → s.fault = none →
    s.inputs = .host (.read space addr) :: rest →
    (addr < spaceSize s.cfg → s.readable space addr = true →
      step s = .next { s with inputs := rest, reply := some (s.readByte space addr) }) ∧
    (addr < spaceSize s.cfg → s.readable space addr = false →
      ∃ v, step s = .next { s with inputs := rest, reply := some v, draws := s.draws + 1 }) ∧
    (spaceSize s.cfg ≤ addr → step s = .fault (.noSuchAddress space addr))) ∧
  (∀ (s : State) addr v rest, legalProfile s.cfg.profile = true → s.fault = none →
    s.inputs = .host (.write .data addr v) :: rest →
    (addr < spaceSize s.cfg → s.borrowed .data addr = false →
      step s = .next { s with inputs := rest, reply := none,
                              dataMem := Memory.write s.dataMem addr v }) ∧
    (spaceSize s.cfg ≤ addr → step s = .fault (.noSuchAddress .data addr))) ∧
  (∀ (s : State) addr v rest, legalProfile s.cfg.profile = true → s.fault = none →
    s.inputs = .host (.write .const addr v) :: rest → step s = .refused (.constWrite addr)) ∧
  (∀ (s : State) space addr, s.engine = .idle → s.borrowed space addr = false)

/-- A write to a memory in canonical form keeps the form, is read back, and leaves every other address
alone; two memories in the form that read alike are equal. -/
def Obligations.MemoryWriteIsReadBack : Prop :=
  (∀ (m : Memory) (a : Nat) (v : Byte), Memory.wf m = true →
    Memory.wf (Memory.write m a v) = true ∧ Memory.read (Memory.write m a v) a = v ∧
    ∀ b, b ≠ a → Memory.read (Memory.write m a v) b = Memory.read m b) ∧
  (∀ m n : Memory, Memory.wf m = true → Memory.wf n = true →
    (∀ a, Memory.read m a = Memory.read n a) → m = n)

/-! ## Builds -/

/-- R101: the legality of a timing profile, the rejection of an illegal one before any machine exists, and
the rule's corner cases and examples. -/
def Obligations.TimingProfileCheck : Prop :=
  (∀ p : TimingProfile, legalProfile p = true ↔ 0 < p.tLow ∧ p.tLow < p.tHigh ∧ p.tHigh < p.tTotal) ∧
  (∀ (r : BuildRequest) t p, r.tier = some t → r.profile = some p → legalProfile p = false →
    build r = .rejected .cfgOrder) ∧
  (∀ (r : BuildRequest) c, build r = .built c → legalProfile c.profile = true) ∧
  (∀ s : State, legalProfile s.cfg.profile = false → step s = .refused (.illegalBuild .cfgOrder)) ∧
  (∀ p : TimingProfile, p.tLow = 0 ∨ p.tLow = p.tHigh ∨ p.tHigh = p.tTotal → legalProfile p = false) ∧
  (∀ p : TimingProfile, legalProfile p = true → 1 ≤ p.tLow ∧ 2 ≤ p.tHigh ∧ 3 ≤ p.tTotal) ∧
  (∀ f, legalProfile { fOut := f, tTotal := 3, tLow := 1, tHigh := 2 } = true ∧
    legalProfile { fOut := f, tTotal := 44, tLow := 12, tHigh := 32 } = true ∧
    legalProfile { fOut := f, tTotal := 44, tLow := 32, tHigh := 12 } = false)

/-- R102: an unrecognized clock class and an unresolved tier selector are rejected at build time, with
reason CfgUnresolved; there is no fallback. -/
def Obligations.UnresolvedBuildIsRejected : Prop :=
  ∀ r : BuildRequest, (r.tier = none ∨ r.profile = none) → build r = .rejected .cfgUnresolved
end

