-- ==== Sys2Proof/Laws/Decode.lean ====
section
/-! SUPPORT. The command record: a packed word's fields are the packed values, and each command's word
decodes by its code (R71, R72). -/

namespace Sys2Proof

variable {c : Config}

/-! ## Fields -/

/-- A field is below its width. -/
theorem wordField_lt (w lo width : Nat) : wordField w lo width < 2 ^ width :=
  Nat.mod_lt _ (Nat.two_pow_pos _)

/-- A field of `low + v * 2^lo + high * 2^(lo + width)` whose parts fit is `v`. -/
theorem wordField_of_parts {low v high lo width : Nat} (hl : low < 2 ^ lo) (hv : v < 2 ^ width) :
    wordField (low + v * 2 ^ lo + high * 2 ^ (lo + width)) lo width = v := by
  have e : low + v * 2 ^ lo + high * 2 ^ (lo + width) = low + 2 ^ lo * (v + 2 ^ width * high) := by
    rw [Nat.pow_add]; ring
  unfold wordField
  rw [e, Nat.add_mul_div_left _ _ (Nat.two_pow_pos lo), Nat.div_eq_of_lt hl, Nat.zero_add,
    Nat.add_mul_mod_self_left, Nat.mod_eq_of_lt hv]

/-- Parts that fit their fields fit together. -/
theorem parts_lt {low v lo width : Nat} (hl : low < 2 ^ lo) (hv : v < 2 ^ width) :
    low + v * 2 ^ lo < 2 ^ (lo + width) := by
  rw [Nat.pow_add]
  calc low + v * 2 ^ lo < 2 ^ lo + v * 2 ^ lo := by omega
    _ = 2 ^ lo * (v + 1) := by ring
    _ ≤ 2 ^ lo * 2 ^ width := Nat.mul_le_mul_left _ hv

/-- A word is its low part, the field, and what lies above. -/
theorem low_add_field (w lo width : Nat) :
    w % 2 ^ lo + wordField w lo width * 2 ^ lo = w % 2 ^ (lo + width) := by
  unfold wordField
  rw [Nat.pow_add, Nat.mod_mul, Nat.mul_comm (2 ^ lo)]

/-! ## Packing -/

theorem gpBit_lt (gamma : Option Nat) : gpBit gamma < 2 ^ 1 := by
  unfold gpBit; split <;> decide

section
variable {op data count : Nat} {gamma : Option Nat}

/-- The packed fields read back (R71). -/
theorem fields_packFields (ho : op < 2 ^ 8) (hd : data < 2 ^ c.addrBits)
    (hn : count < 2 ^ c.countBits) (hg : gamma.getD 0 < 2 ^ c.addrBits) :
    let w := packFields c op data count gamma
    opField w = op ∧ gpField w = gpBit gamma ∧ dataField c w = data ∧ countField c w = count ∧
      gammaField c w = gamma.getD 0 ∧ w < 2 ^ c.wordBits := by
  have h1 := parts_lt ho (gpBit_lt gamma)
  have h2 := parts_lt h1 hd
  have h3 := parts_lt h2 hn
  have h4 := parts_lt h3 hg
  refine ⟨?_, ?_, ?_, ?_, ?_, ?_⟩
  · have := wordField_of_parts (low := 0) (lo := 0) (width := 8)
      (high := gpBit gamma + data * 2 + count * 2 ^ (1 + c.addrBits) +
        gamma.getD 0 * 2 ^ (1 + c.addrBits + c.countBits)) (by decide) ho
    conv_rhs => rw [← this]
    unfold opField packFields
    congr 1
    simp only [Nat.pow_add]; ring
  · have := wordField_of_parts (high := data + count * 2 ^ c.addrBits +
      gamma.getD 0 * 2 ^ (c.addrBits + c.countBits)) ho (gpBit_lt gamma)
    conv_rhs => rw [← this]
    unfold gpField packFields
    congr 1
    simp only [Nat.pow_add]; ring
  · have := wordField_of_parts (high := count + gamma.getD 0 * 2 ^ c.countBits) h1 hd
    conv_rhs => rw [← this]
    unfold dataField packFields
    congr 1
    simp only [Nat.pow_add]; ring
  · have := wordField_of_parts (high := gamma.getD 0) h2 hn
    conv_rhs => rw [← this]
    rfl
  · have := wordField_of_parts (high := 0) h3 hg
    conv_rhs => rw [← this]
    unfold gammaField packFields
    congr 1
    rw [Nat.zero_mul, Nat.add_zero]
  · have e : c.wordBits = 8 + 1 + c.addrBits + c.countBits + c.addrBits := by
      unfold Config.wordBits; omega
    rw [e]; exact h4

/-- The gamma operand reads back (R73). -/
theorem gammaOperand_packFields (ho : op < 2 ^ 8) (hd : data < 2 ^ c.addrBits)
    (hn : count < 2 ^ c.countBits) (hg : gamma.getD 0 < 2 ^ c.addrBits) :
    gammaOperand c (packFields c op data count gamma) = gamma := by
  obtain ⟨-, h2, -, -, h5, -⟩ := fields_packFields ho hd hn hg
  unfold gammaOperand
  rw [h2, h5]
  cases gamma <;> simp [gpBit]

end

/-- The parts of `operandsFit` (R71). -/
theorem operandsFit_iff {data count : Nat} {gamma : Option Nat} :
    operandsFit c data count gamma = true ↔
      data < 2 ^ c.addrBits ∧ count < 2 ^ c.countBits ∧ gamma.getD 0 < 2 ^ c.addrBits := by
  simp [operandsFit, and_assoc]

/-! ## The decoder by cases -/

/-- What a word that decodes to a command is (R72, R76). -/
theorem decode_command {w : Nat} {i : Instr} (h : decode c w = .command i) :
    (opField w = 0x01 ∧ i = .wsInit) ∨
    (opField w = 0x02 ∧ c.tier = .a ∧
      i = .wsOut (dataField c w) (countField c w) (gammaOperand c w)) ∨
    (opField w = 0x03 ∧ c.tier = .b ∧
      i = .wsOuta (dataField c w) (countField c w) (gammaOperand c w)) ∨
    (opField w = 0x04 ∧ c.tier = .b ∧ i = .wsCheck) := by
  unfold decode at h
  split at h
  · cases h; exact Or.inl ⟨‹_›, rfl⟩
  · split at h
    · rename_i h2; cases h; exact Or.inr (Or.inl ⟨h2.1, h2.2, rfl⟩)
    · split at h
      · rename_i h3; cases h; exact Or.inr (Or.inr (Or.inl ⟨h3.1, h3.2, rfl⟩))
      · split at h
        · rename_i h4; cases h; exact Or.inr (Or.inr (Or.inr ⟨h4.1, h4.2, rfl⟩))
        · cases h

/-- The code a word is illegal for is its `op` (R76). -/
theorem decode_illegal {w : Nat} {op : Byte} (h : decode c w = .illegal op) :
    op = BitVec.ofNat 8 (opField w) := by
  unfold decode at h
  repeat' split at h
  all_goals cases h
  rfl

/-- A decoded command is well formed: its operands come from fields of the record (R71). -/
theorem wf_of_decode {w : Nat} {i : Instr} (h : decode c w = .command i) : i.wf c = true := by
  have hg : (gammaOperand c w).getD 0 < 2 ^ c.addrBits := by
    unfold gammaOperand
    split
    · exact wordField_lt _ _ _
    · exact Nat.two_pow_pos _
  have hf : operandsFit c (dataField c w) (countField c w) (gammaOperand c w) = true :=
    operandsFit_iff.2 ⟨wordField_lt _ _ _, wordField_lt _ _ _, hg⟩
  rcases decode_command h with ⟨-, rfl⟩ | ⟨-, ht, rfl⟩ | ⟨-, ht, rfl⟩ | ⟨-, ht, rfl⟩
  · rfl
  · simpa [Instr.wf, Instr.legalIn, Instr.fits, ht] using hf
  · simpa [Instr.wf, Instr.legalIn, Instr.fits, ht] using hf
  · simp [Instr.wf, Instr.legalIn, Instr.fits, ht]

end Sys2Proof
end

