-- ==== Sys2Proof/Laws/Memory.lean ====
section
/-! SUPPORT. The laws of a memory in canonical form: a write is read back, leaves every other address
alone, and keeps the form and the bounds. -/

namespace Sys2Proof.Machine

open Sys2Proof

namespace Memory

@[simp] theorem read_nil (a : Nat) : read [] a = unlisted := rfl

@[simp] theorem read_cons (a : Nat) (v : Byte) (m : Memory) (b : Nat) :
    read ((a, v) :: m) b = if a = b then v else read m b := rfl

/-- A bound below which nothing is listed may be lowered. -/
theorem risingFrom_mono {lo hi : Nat} (h : lo ≤ hi) {m : Memory} (hm : risingFrom hi m = true) :
    risingFrom lo m = true := by
  cases m with
  | nil => rfl
  | cons c m =>
    simp only [risingFrom, Bool.and_eq_true, decide_eq_true_eq] at hm ⊢
    exact ⟨by omega, hm.2⟩

/-- An address below every listed one is not listed. -/
theorem read_of_lt {lo a : Nat} {m : Memory} (hm : risingFrom lo m = true) (h : a < lo) :
    read m a = unlisted := by
  induction m generalizing lo with
  | nil => rfl
  | cons c m ih =>
    obtain ⟨b, u⟩ := c
    simp only [risingFrom, Bool.and_eq_true, decide_eq_true_eq] at hm
    rw [read_cons, if_neg (by omega)]
    exact ih hm.2 (by omega)

theorem risingFrom_write {lo a : Nat} {m : Memory} (v : Byte) (hm : risingFrom lo m = true)
    (h : lo ≤ a) : risingFrom lo (write m a v) = true := by
  induction m generalizing lo with
  | nil => unfold write; split <;> simp [risingFrom, h]
  | cons c m ih =>
    obtain ⟨b, u⟩ := c
    simp only [risingFrom, Bool.and_eq_true, decide_eq_true_eq] at hm
    unfold write
    split
    · split
      · simp [risingFrom, hm]
      · simp only [risingFrom, Bool.and_eq_true, decide_eq_true_eq]
        exact ⟨h, by omega, hm.2⟩
    · split
      · split
        · exact risingFrom_mono (by omega) hm.2
        · simp [risingFrom, hm]
      · simp only [risingFrom, Bool.and_eq_true, decide_eq_true_eq]
        exact ⟨hm.1, ih hm.2 (by omega)⟩

/-- A cell of the memory after a write was there before, or is the one written. -/
theorem mem_write {m : Memory} {a : Nat} {v : Byte} {c : Host.Cell} (h : c ∈ write m a v) :
    c ∈ m ∨ (c = (a, v) ∧ v ≠ unlisted) := by
  induction m with
  | nil =>
    unfold write at h
    split at h
    · simp at h
    · exact Or.inr ⟨by simpa using h, ‹_›⟩
  | cons d m ih =>
    obtain ⟨b, u⟩ := d
    unfold write at h
    split at h
    · split at h
      · exact Or.inl h
      · rcases List.mem_cons.1 h with h | h
        · exact Or.inr ⟨h, ‹_›⟩
        · exact Or.inl h
    · split at h
      · split at h
        · exact Or.inl (List.mem_cons_of_mem _ h)
        · rcases List.mem_cons.1 h with h | h
          · subst_vars; exact Or.inr ⟨rfl, ‹_›⟩
          · exact Or.inl (List.mem_cons_of_mem _ h)
      · rcases List.mem_cons.1 h with h | h
        · exact Or.inl (by rw [h]; exact List.mem_cons_self)
        · exact (ih h).imp_left (List.mem_cons_of_mem _)

/-- A write keeps the canonical form. -/
theorem wf_write {m : Memory} (a : Nat) (v : Byte) (hm : wf m = true) : wf (write m a v) = true := by
  simp only [wf, Bool.and_eq_true, List.all_eq_true, decide_eq_true_eq] at hm ⊢
  refine ⟨risingFrom_write v hm.1 (Nat.zero_le a), fun c hc => ?_⟩
  rcases mem_write hc with h | ⟨rfl, h⟩
  · exact hm.2 c h
  · exact h

/-- A write inside the space keeps every listed address inside it. -/
theorem within_write {size a : Nat} {m : Memory} (v : Byte) (ha : a < size)
    (hm : within size m = true) : within size (write m a v) = true := by
  simp only [within, List.all_eq_true, decide_eq_true_eq] at hm ⊢
  intro c hc
  rcases mem_write hc with h | ⟨rfl, -⟩
  · exact hm c h
  · exact ha

theorem read_write_rising {lo a b : Nat} {m : Memory} (v : Byte) (hm : risingFrom lo m = true) :
    read (write m a v) b = if a = b then v else read m b := by
  induction m generalizing lo with
  | nil =>
    by_cases hv : v = unlisted
    · subst hv; simp [write]
    · simp [write, hv]
  | cons c m ih =>
    obtain ⟨d, u⟩ := c
    simp only [risingFrom, Bool.and_eq_true, decide_eq_true_eq] at hm
    unfold write
    by_cases h1 : a < d
    · rw [if_pos h1]
      by_cases hv : v = unlisted
      · subst hv
        by_cases hab : a = b
        · subst hab
          rw [if_pos rfl, if_pos rfl, read_cons, if_neg (by omega)]
          exact read_of_lt hm.2 (by omega)
        · rw [if_pos rfl, if_neg hab]
      · rw [if_neg hv, read_cons]
    · rw [if_neg h1]
      by_cases h2 : a = d
      · subst h2
        by_cases hv : v = unlisted
        · subst hv
          by_cases hab : a = b
          · subst hab
            rw [if_pos rfl, if_pos rfl, if_pos rfl]
            exact read_of_lt hm.2 (by omega)
          · simp [hab]
        · by_cases hab : a = b <;> simp [hv, hab]
      · rw [if_neg h2, read_cons, ih hm.2, read_cons]
        by_cases hdb : d = b
        · subst hdb; simp [h2]
        · simp [hdb]

/-- What a write stores is read back. -/
theorem read_write_same {m : Memory} (a : Nat) (v : Byte) (hm : wf m = true) :
    read (write m a v) a = v := by
  simp only [wf, Bool.and_eq_true] at hm
  simp [read_write_rising v hm.1]

/-- A write leaves every other address alone. -/
theorem read_write_other {m : Memory} {a b : Nat} (v : Byte) (hm : wf m = true) (h : b ≠ a) :
    read (write m a v) b = read m b := by
  simp only [wf, Bool.and_eq_true] at hm
  rw [read_write_rising v hm.1, if_neg (Ne.symm h)]

end Memory

end Sys2Proof.Machine
end

