-- ==== Sys2Proof/Laws/State.lean ====
section
/-! SUPPORT. One lemma per field of `State` per elementary update, true by `rfl`: later proofs read a field
through an update without unfolding it. -/

namespace Sys2Proof.Machine

open Sys2Proof

/-! ## `withReply` -/

section
variable (v : Byte) (s : State)

@[simp] theorem withReply_cfg : (withReply v s).cfg = s.cfg := rfl
@[simp] theorem withReply_holes : (withReply v s).holes = s.holes := rfl
@[simp] theorem withReply_dataMem : (withReply v s).dataMem = s.dataMem := rfl
@[simp] theorem withReply_constMem : (withReply v s).constMem = s.constMem := rfl
@[simp] theorem withReply_initd : (withReply v s).initd = s.initd := rfl
@[simp] theorem withReply_engine : (withReply v s).engine = s.engine := rfl
@[simp] theorem withReply_line : (withReply v s).line = s.line := rfl
@[simp] theorem withReply_fault : (withReply v s).fault = s.fault := rfl
@[simp] theorem withReply_xferAddr : (withReply v s).xferAddr = s.xferAddr := rfl
@[simp] theorem withReply_xferCount : (withReply v s).xferCount = s.xferCount := rfl
@[simp] theorem withReply_xferGamma : (withReply v s).xferGamma = s.xferGamma := rfl
@[simp] theorem withReply_seq : (withReply v s).seq = s.seq := rfl
@[simp] theorem withReply_byteIdx : (withReply v s).byteIdx = s.byteIdx := rfl
@[simp] theorem withReply_bitIdx : (withReply v s).bitIdx = s.bitIdx := rfl
@[simp] theorem withReply_cyc : (withReply v s).cyc = s.cyc := rfl
@[simp] theorem withReply_shift : (withReply v s).shift = s.shift := rfl
@[simp] theorem withReply_prefetch : (withReply v s).prefetch = s.prefetch := rfl
@[simp] theorem withReply_wire : (withReply v s).wire = s.wire := rfl
@[simp] theorem withReply_reads : (withReply v s).reads = s.reads := rfl
@[simp] theorem withReply_reply : (withReply v s).reply = some v := rfl
@[simp] theorem withReply_inputs : (withReply v s).inputs = s.inputs := rfl
@[simp] theorem withReply_draws : (withReply v s).draws = s.draws := rfl

end

/-! ## `withoutReply` -/

section
variable (s : State)

@[simp] theorem withoutReply_cfg : (withoutReply s).cfg = s.cfg := rfl
@[simp] theorem withoutReply_holes : (withoutReply s).holes = s.holes := rfl
@[simp] theorem withoutReply_dataMem : (withoutReply s).dataMem = s.dataMem := rfl
@[simp] theorem withoutReply_constMem : (withoutReply s).constMem = s.constMem := rfl
@[simp] theorem withoutReply_initd : (withoutReply s).initd = s.initd := rfl
@[simp] theorem withoutReply_engine : (withoutReply s).engine = s.engine := rfl
@[simp] theorem withoutReply_line : (withoutReply s).line = s.line := rfl
@[simp] theorem withoutReply_fault : (withoutReply s).fault = s.fault := rfl
@[simp] theorem withoutReply_xferAddr : (withoutReply s).xferAddr = s.xferAddr := rfl
@[simp] theorem withoutReply_xferCount : (withoutReply s).xferCount = s.xferCount := rfl
@[simp] theorem withoutReply_xferGamma : (withoutReply s).xferGamma = s.xferGamma := rfl
@[simp] theorem withoutReply_seq : (withoutReply s).seq = s.seq := rfl
@[simp] theorem withoutReply_byteIdx : (withoutReply s).byteIdx = s.byteIdx := rfl
@[simp] theorem withoutReply_bitIdx : (withoutReply s).bitIdx = s.bitIdx := rfl
@[simp] theorem withoutReply_cyc : (withoutReply s).cyc = s.cyc := rfl
@[simp] theorem withoutReply_shift : (withoutReply s).shift = s.shift := rfl
@[simp] theorem withoutReply_prefetch : (withoutReply s).prefetch = s.prefetch := rfl
@[simp] theorem withoutReply_wire : (withoutReply s).wire = s.wire := rfl
@[simp] theorem withoutReply_reads : (withoutReply s).reads = s.reads := rfl
@[simp] theorem withoutReply_reply : (withoutReply s).reply = none := rfl
@[simp] theorem withoutReply_inputs : (withoutReply s).inputs = s.inputs := rfl
@[simp] theorem withoutReply_draws : (withoutReply s).draws = s.draws := rfl

end

/-! ## `loadTransfer` -/

section
variable (addr n : Nat) (gamma : Option Nat) (s : State)

@[simp] theorem loadTransfer_cfg : (loadTransfer addr n gamma s).cfg = s.cfg := rfl
@[simp] theorem loadTransfer_holes : (loadTransfer addr n gamma s).holes = s.holes := rfl
@[simp] theorem loadTransfer_dataMem : (loadTransfer addr n gamma s).dataMem = s.dataMem := rfl
@[simp] theorem loadTransfer_constMem : (loadTransfer addr n gamma s).constMem = s.constMem := rfl
@[simp] theorem loadTransfer_initd : (loadTransfer addr n gamma s).initd = s.initd := rfl
@[simp] theorem loadTransfer_engine : (loadTransfer addr n gamma s).engine = s.engine := rfl
@[simp] theorem loadTransfer_line : (loadTransfer addr n gamma s).line = s.line := rfl
@[simp] theorem loadTransfer_fault : (loadTransfer addr n gamma s).fault = s.fault := rfl
@[simp] theorem loadTransfer_xferAddr : (loadTransfer addr n gamma s).xferAddr = addr := rfl
@[simp] theorem loadTransfer_xferCount : (loadTransfer addr n gamma s).xferCount = n := rfl
@[simp] theorem loadTransfer_xferGamma : (loadTransfer addr n gamma s).xferGamma = gamma := rfl
@[simp] theorem loadTransfer_seq : (loadTransfer addr n gamma s).seq = s.seq := rfl
@[simp] theorem loadTransfer_byteIdx : (loadTransfer addr n gamma s).byteIdx = s.byteIdx := rfl
@[simp] theorem loadTransfer_bitIdx : (loadTransfer addr n gamma s).bitIdx = s.bitIdx := rfl
@[simp] theorem loadTransfer_cyc : (loadTransfer addr n gamma s).cyc = s.cyc := rfl
@[simp] theorem loadTransfer_shift : (loadTransfer addr n gamma s).shift = s.shift := rfl
@[simp] theorem loadTransfer_prefetch : (loadTransfer addr n gamma s).prefetch = s.prefetch := rfl
@[simp] theorem loadTransfer_wire : (loadTransfer addr n gamma s).wire = s.wire := rfl
@[simp] theorem loadTransfer_reads : (loadTransfer addr n gamma s).reads = s.reads := rfl
@[simp] theorem loadTransfer_reply : (loadTransfer addr n gamma s).reply = s.reply := rfl
@[simp] theorem loadTransfer_inputs : (loadTransfer addr n gamma s).inputs = s.inputs := rfl
@[simp] theorem loadTransfer_draws : (loadTransfer addr n gamma s).draws = s.draws := rfl

end

/-! ## `recordReads` -/

section
variable (rs : List Access) (s : State)

@[simp] theorem recordReads_cfg : (recordReads rs s).cfg = s.cfg := rfl
@[simp] theorem recordReads_holes : (recordReads rs s).holes = s.holes := rfl
@[simp] theorem recordReads_dataMem : (recordReads rs s).dataMem = s.dataMem := rfl
@[simp] theorem recordReads_constMem : (recordReads rs s).constMem = s.constMem := rfl
@[simp] theorem recordReads_initd : (recordReads rs s).initd = s.initd := rfl
@[simp] theorem recordReads_engine : (recordReads rs s).engine = s.engine := rfl
@[simp] theorem recordReads_line : (recordReads rs s).line = s.line := rfl
@[simp] theorem recordReads_fault : (recordReads rs s).fault = s.fault := rfl
@[simp] theorem recordReads_xferAddr : (recordReads rs s).xferAddr = s.xferAddr := rfl
@[simp] theorem recordReads_xferCount : (recordReads rs s).xferCount = s.xferCount := rfl
@[simp] theorem recordReads_xferGamma : (recordReads rs s).xferGamma = s.xferGamma := rfl
@[simp] theorem recordReads_seq : (recordReads rs s).seq = s.seq := rfl
@[simp] theorem recordReads_byteIdx : (recordReads rs s).byteIdx = s.byteIdx := rfl
@[simp] theorem recordReads_bitIdx : (recordReads rs s).bitIdx = s.bitIdx := rfl
@[simp] theorem recordReads_cyc : (recordReads rs s).cyc = s.cyc := rfl
@[simp] theorem recordReads_shift : (recordReads rs s).shift = s.shift := rfl
@[simp] theorem recordReads_prefetch : (recordReads rs s).prefetch = s.prefetch := rfl
@[simp] theorem recordReads_wire : (recordReads rs s).wire = s.wire := rfl
@[simp] theorem recordReads_reads : (recordReads rs s).reads = s.reads ++ rs := rfl
@[simp] theorem recordReads_reply : (recordReads rs s).reply = s.reply := rfl
@[simp] theorem recordReads_inputs : (recordReads rs s).inputs = s.inputs := rfl
@[simp] theorem recordReads_draws : (recordReads rs s).draws = s.draws := rfl

end

/-! ## `startFrame` -/

section
variable (bytes : List Byte) (s : State)

@[simp] theorem startFrame_cfg : (startFrame bytes s).cfg = s.cfg := rfl
@[simp] theorem startFrame_holes : (startFrame bytes s).holes = s.holes := rfl
@[simp] theorem startFrame_dataMem : (startFrame bytes s).dataMem = s.dataMem := rfl
@[simp] theorem startFrame_constMem : (startFrame bytes s).constMem = s.constMem := rfl
@[simp] theorem startFrame_initd : (startFrame bytes s).initd = s.initd := rfl
@[simp] theorem startFrame_engine : (startFrame bytes s).engine = s.engine := rfl
@[simp] theorem startFrame_line : (startFrame bytes s).line = s.line := rfl
@[simp] theorem startFrame_fault : (startFrame bytes s).fault = s.fault := rfl
@[simp] theorem startFrame_xferAddr : (startFrame bytes s).xferAddr = s.xferAddr := rfl
@[simp] theorem startFrame_xferCount : (startFrame bytes s).xferCount = s.xferCount := rfl
@[simp] theorem startFrame_xferGamma : (startFrame bytes s).xferGamma = s.xferGamma := rfl
@[simp] theorem startFrame_seq : (startFrame bytes s).seq = bytes := rfl
@[simp] theorem startFrame_byteIdx : (startFrame bytes s).byteIdx = 0 := rfl
@[simp] theorem startFrame_bitIdx : (startFrame bytes s).bitIdx = 0 := rfl
@[simp] theorem startFrame_cyc : (startFrame bytes s).cyc = 0 := rfl
@[simp] theorem startFrame_shift : (startFrame bytes s).shift = bytes.headD 0 := rfl
@[simp] theorem startFrame_prefetch : (startFrame bytes s).prefetch = s.prefetch := rfl
@[simp] theorem startFrame_wire : (startFrame bytes s).wire = s.wire := rfl
@[simp] theorem startFrame_reads : (startFrame bytes s).reads = s.reads := rfl
@[simp] theorem startFrame_reply : (startFrame bytes s).reply = s.reply := rfl
@[simp] theorem startFrame_inputs : (startFrame bytes s).inputs = s.inputs := rfl
@[simp] theorem startFrame_draws : (startFrame bytes s).draws = s.draws := rfl

end

/-! ## `emitFrame` -/

section
variable (bytes : List Byte) (s : State)

@[simp] theorem emitFrame_cfg : (emitFrame bytes s).cfg = s.cfg := rfl
@[simp] theorem emitFrame_holes : (emitFrame bytes s).holes = s.holes := rfl
@[simp] theorem emitFrame_dataMem : (emitFrame bytes s).dataMem = s.dataMem := rfl
@[simp] theorem emitFrame_constMem : (emitFrame bytes s).constMem = s.constMem := rfl
@[simp] theorem emitFrame_initd : (emitFrame bytes s).initd = s.initd := rfl
@[simp] theorem emitFrame_engine : (emitFrame bytes s).engine = s.engine := rfl
@[simp] theorem emitFrame_line : (emitFrame bytes s).line = s.line := rfl
@[simp] theorem emitFrame_fault : (emitFrame bytes s).fault = s.fault := rfl
@[simp] theorem emitFrame_xferAddr : (emitFrame bytes s).xferAddr = s.xferAddr := rfl
@[simp] theorem emitFrame_xferCount : (emitFrame bytes s).xferCount = s.xferCount := rfl
@[simp] theorem emitFrame_xferGamma : (emitFrame bytes s).xferGamma = s.xferGamma := rfl
@[simp] theorem emitFrame_seq : (emitFrame bytes s).seq = s.seq := rfl
@[simp] theorem emitFrame_byteIdx : (emitFrame bytes s).byteIdx = s.byteIdx := rfl
@[simp] theorem emitFrame_bitIdx : (emitFrame bytes s).bitIdx = s.bitIdx := rfl
@[simp] theorem emitFrame_cyc : (emitFrame bytes s).cyc = s.cyc := rfl
@[simp] theorem emitFrame_shift : (emitFrame bytes s).shift = s.shift := rfl
@[simp] theorem emitFrame_prefetch : (emitFrame bytes s).prefetch = s.prefetch := rfl
@[simp] theorem emitFrame_wire : (emitFrame bytes s).wire = s.wire ++ [.gap, .frame bytes] := rfl
@[simp] theorem emitFrame_reads : (emitFrame bytes s).reads = s.reads := rfl
@[simp] theorem emitFrame_reply : (emitFrame bytes s).reply = s.reply := rfl
@[simp] theorem emitFrame_inputs : (emitFrame bytes s).inputs = s.inputs := rfl
@[simp] theorem emitFrame_draws : (emitFrame bytes s).draws = s.draws := rfl

end

/-! ## `endFrame` -/

section
variable (s : State)

@[simp] theorem endFrame_cfg : (endFrame s).cfg = s.cfg := rfl
@[simp] theorem endFrame_holes : (endFrame s).holes = s.holes := rfl
@[simp] theorem endFrame_dataMem : (endFrame s).dataMem = s.dataMem := rfl
@[simp] theorem endFrame_constMem : (endFrame s).constMem = s.constMem := rfl
@[simp] theorem endFrame_initd : (endFrame s).initd = s.initd := rfl
@[simp] theorem endFrame_engine : (endFrame s).engine = .idle := rfl
@[simp] theorem endFrame_line : (endFrame s).line = s.line := rfl
@[simp] theorem endFrame_fault : (endFrame s).fault = s.fault := rfl
@[simp] theorem endFrame_xferAddr : (endFrame s).xferAddr = s.xferAddr := rfl
@[simp] theorem endFrame_xferCount : (endFrame s).xferCount = s.xferCount := rfl
@[simp] theorem endFrame_xferGamma : (endFrame s).xferGamma = s.xferGamma := rfl
@[simp] theorem endFrame_seq : (endFrame s).seq = s.seq := rfl
@[simp] theorem endFrame_byteIdx : (endFrame s).byteIdx = s.byteIdx := rfl
@[simp] theorem endFrame_bitIdx : (endFrame s).bitIdx = s.bitIdx := rfl
@[simp] theorem endFrame_cyc : (endFrame s).cyc = s.cyc := rfl
@[simp] theorem endFrame_shift : (endFrame s).shift = s.shift := rfl
@[simp] theorem endFrame_prefetch : (endFrame s).prefetch = s.prefetch := rfl
@[simp] theorem endFrame_wire : (endFrame s).wire = s.wire := rfl
@[simp] theorem endFrame_reads : (endFrame s).reads = s.reads := rfl
@[simp] theorem endFrame_reply : (endFrame s).reply = s.reply := rfl
@[simp] theorem endFrame_inputs : (endFrame s).inputs = s.inputs := rfl
@[simp] theorem endFrame_draws : (endFrame s).draws = s.draws := rfl

end

/-! ## `takeEvent` -/

section
variable (rest : List Event) (s : State)

@[simp] theorem takeEvent_cfg : (takeEvent rest s).cfg = s.cfg := rfl
@[simp] theorem takeEvent_holes : (takeEvent rest s).holes = s.holes := rfl
@[simp] theorem takeEvent_dataMem : (takeEvent rest s).dataMem = s.dataMem := rfl
@[simp] theorem takeEvent_constMem : (takeEvent rest s).constMem = s.constMem := rfl
@[simp] theorem takeEvent_initd : (takeEvent rest s).initd = s.initd := rfl
@[simp] theorem takeEvent_engine : (takeEvent rest s).engine = s.engine := rfl
@[simp] theorem takeEvent_line : (takeEvent rest s).line = s.line := rfl
@[simp] theorem takeEvent_fault : (takeEvent rest s).fault = s.fault := rfl
@[simp] theorem takeEvent_xferAddr : (takeEvent rest s).xferAddr = s.xferAddr := rfl
@[simp] theorem takeEvent_xferCount : (takeEvent rest s).xferCount = s.xferCount := rfl
@[simp] theorem takeEvent_xferGamma : (takeEvent rest s).xferGamma = s.xferGamma := rfl
@[simp] theorem takeEvent_seq : (takeEvent rest s).seq = s.seq := rfl
@[simp] theorem takeEvent_byteIdx : (takeEvent rest s).byteIdx = s.byteIdx := rfl
@[simp] theorem takeEvent_bitIdx : (takeEvent rest s).bitIdx = s.bitIdx := rfl
@[simp] theorem takeEvent_cyc : (takeEvent rest s).cyc = s.cyc := rfl
@[simp] theorem takeEvent_shift : (takeEvent rest s).shift = s.shift := rfl
@[simp] theorem takeEvent_prefetch : (takeEvent rest s).prefetch = s.prefetch := rfl
@[simp] theorem takeEvent_wire : (takeEvent rest s).wire = s.wire := rfl
@[simp] theorem takeEvent_reads : (takeEvent rest s).reads = s.reads := rfl
@[simp] theorem takeEvent_reply : (takeEvent rest s).reply = s.reply := rfl
@[simp] theorem takeEvent_inputs : (takeEvent rest s).inputs = rest := rfl
@[simp] theorem takeEvent_draws : (takeEvent rest s).draws = s.draws := rfl

end

/-! ## `storeData` -/

section
variable (addr : Nat) (v : Byte) (s : State)

@[simp] theorem storeData_cfg : (storeData addr v s).cfg = s.cfg := rfl
@[simp] theorem storeData_holes : (storeData addr v s).holes = s.holes := rfl
@[simp] theorem storeData_dataMem : (storeData addr v s).dataMem = Memory.write s.dataMem addr v := rfl
@[simp] theorem storeData_constMem : (storeData addr v s).constMem = s.constMem := rfl
@[simp] theorem storeData_initd : (storeData addr v s).initd = s.initd := rfl
@[simp] theorem storeData_engine : (storeData addr v s).engine = s.engine := rfl
@[simp] theorem storeData_line : (storeData addr v s).line = s.line := rfl
@[simp] theorem storeData_fault : (storeData addr v s).fault = s.fault := rfl
@[simp] theorem storeData_xferAddr : (storeData addr v s).xferAddr = s.xferAddr := rfl
@[simp] theorem storeData_xferCount : (storeData addr v s).xferCount = s.xferCount := rfl
@[simp] theorem storeData_xferGamma : (storeData addr v s).xferGamma = s.xferGamma := rfl
@[simp] theorem storeData_seq : (storeData addr v s).seq = s.seq := rfl
@[simp] theorem storeData_byteIdx : (storeData addr v s).byteIdx = s.byteIdx := rfl
@[simp] theorem storeData_bitIdx : (storeData addr v s).bitIdx = s.bitIdx := rfl
@[simp] theorem storeData_cyc : (storeData addr v s).cyc = s.cyc := rfl
@[simp] theorem storeData_shift : (storeData addr v s).shift = s.shift := rfl
@[simp] theorem storeData_prefetch : (storeData addr v s).prefetch = s.prefetch := rfl
@[simp] theorem storeData_wire : (storeData addr v s).wire = s.wire := rfl
@[simp] theorem storeData_reads : (storeData addr v s).reads = s.reads := rfl
@[simp] theorem storeData_reply : (storeData addr v s).reply = s.reply := rfl
@[simp] theorem storeData_inputs : (storeData addr v s).inputs = s.inputs := rfl
@[simp] theorem storeData_draws : (storeData addr v s).draws = s.draws := rfl

end

/-! ## `resetBlock` -/

section
variable (s : State)

@[simp] theorem resetBlock_cfg : (resetBlock s).cfg = s.cfg := rfl
@[simp] theorem resetBlock_holes : (resetBlock s).holes = s.holes := rfl
@[simp] theorem resetBlock_dataMem : (resetBlock s).dataMem = s.dataMem := rfl
@[simp] theorem resetBlock_constMem : (resetBlock s).constMem = s.constMem := rfl
@[simp] theorem resetBlock_inputs : (resetBlock s).inputs = s.inputs := rfl
@[simp] theorem resetBlock_initd : (resetBlock s).initd = false := rfl
@[simp] theorem resetBlock_engine : (resetBlock s).engine = .idle := rfl
@[simp] theorem resetBlock_fault : (resetBlock s).fault = none := rfl
@[simp] theorem resetBlock_wire : (resetBlock s).wire = [] := rfl
@[simp] theorem resetBlock_reads : (resetBlock s).reads = [] := rfl
@[simp] theorem resetBlock_reply : (resetBlock s).reply = none := rfl
@[simp] theorem resetBlock_draws : (resetBlock s).draws = s.draws + 1 := rfl

end

end Sys2Proof.Machine
end

