-- ==== Sys2Proof/Laws/Ops.lean ====
section
/-! SUPPORT. One lemma per shared operation of Machine/Ops.lean that says what it does: raising, running,
reading a byte, and finding the lowest unreadable address. -/

namespace Sys2Proof.Machine

open Sys2Proof

variable {s t : State}

/-! ## Raising and running -/

@[simp] theorem running_of_none {k : Host.Outcome State Fault Refusal} (h : s.fault = none) :
    running s k = k := by simp [running, h]

@[simp] theorem running_of_some {k : Host.Outcome State Fault Refusal} {f : Raised}
    (h : s.fault = some f) : running s k = .fault (.halted f) := by simp [running, h]

/-- A running machine had no fault. -/
theorem running_next {k : Host.Outcome State Fault Refusal} (h : running s k = .next t) :
    s.fault = none ∧ k = .next t := by
  cases hf : s.fault with
  | none => exact ⟨rfl, by simpa [hf] using h⟩
  | some f => simp [hf] at h

@[simp] theorem raise_of_none {f : Raised} (h : s.fault = none) :
    raise f s = { s with fault := some f } := by simp [raise, h]

@[simp] theorem raise_of_some {f g : Raised} (h : s.fault = some g) : raise f s = s := by
  simp [raise, h]

/-- A raised fault writes FAULT and nothing else (R170). -/
@[simp] theorem raised_of_none {f : Raised} (h : s.fault = none) :
    raised f s = .next { s with fault := some f } := by simp [raised, h]

/-! ## Memory through the state -/

/-- A byte read depends on the two memories only. -/
theorem readByte_congr (hd : t.dataMem = s.dataMem) (hc : t.constMem = s.constMem) (space : Space)
    (a : Nat) : t.readByte space a = s.readByte space a := by
  cases space <;> simp [State.readByte, State.memory, hd, hc]

/-- Readability depends on the configuration and the launch memory's holes only. -/
theorem readable_congr (hc : t.cfg = s.cfg) (hh : t.holes = s.holes) (space : Space) (a : Nat) :
    t.readable space a = s.readable space a := by
  simp [State.readable, hc, hh]

/-- A readable address lies inside the space (R54). -/
theorem lt_spaceSize_of_readable {space : Space} {a : Nat} (h : s.readable space a = true) :
    a < spaceSize s.cfg := by
  simp only [State.readable, Bool.and_eq_true, decide_eq_true_eq] at h
  exact h.1

/-- An address outside the space is not readable (R54, R59). -/
theorem readable_eq_false_of_le {space : Space} {a : Nat} (h : spaceSize s.cfg ≤ a) :
    s.readable space a = false := by
  simp [State.readable, Nat.not_lt.2 h]

/-! ## The lowest unreadable address -/

/-- Nothing is found exactly when all of the region is readable. -/
theorem firstUnreadable_eq_none {space : Space} {base len : Nat} :
    firstUnreadable s space base len = none ↔ ∀ i, i < len → s.readable space (base + i) = true := by
  induction len generalizing base with
  | zero => simp [firstUnreadable]
  | succ len ih =>
    unfold firstUnreadable
    by_cases hb : s.readable space base = true
    · rw [if_pos hb, ih]
      constructor
      · intro h i hi
        cases i with
        | zero => exact hb
        | succ i => have := h i (by omega); rwa [show base + (i + 1) = base + 1 + i by omega]
      · intro h i hi
        have := h (i + 1) (by omega)
        rwa [show base + (i + 1) = base + 1 + i by omega] at this
    · rw [if_neg hb]
      simp only [reduceCtorEq, false_iff, not_forall]
      exact ⟨0, by omega, hb⟩

/-- What is found is unreadable, and all before it is readable (R174 item 6). -/
theorem firstUnreadable_of_prefix {space : Space} {base len k : Nat} (hk : k < len)
    (hall : ∀ i, i < k → s.readable space (base + i) = true)
    (hbad : s.readable space (base + k) = false) :
    firstUnreadable s space base len = some (base + k) := by
  induction len generalizing base k with
  | zero => omega
  | succ len ih =>
    unfold firstUnreadable
    cases k with
    | zero => simp only [Nat.add_zero] at hbad ⊢; simp [hbad]
    | succ k =>
      have h0 := hall 0 (by omega)
      simp only [Nat.add_zero] at h0
      rw [if_pos h0, ih (k := k) (by omega)]
      · congr 1; omega
      · intro i hi
        have := hall (i + 1) (by omega)
        rwa [show base + (i + 1) = base + 1 + i by omega] at this
      · rwa [show base + (k + 1) = base + 1 + k by omega] at hbad

end Sys2Proof.Machine
end

