-- ==== Sys2Proof/Laws/Operands.lean ====
section
/-! SUPPORT. The spec lemmas of the operand operations: the bytes of a frame, the reads that give them, the
readability check, and the borrowed region. -/

namespace Sys2Proof.Machine

open Sys2Proof

variable {s t : State}

/-! ## The bytes and reads of a frame -/

@[simp] theorem gammaLookup_none (v : Byte) : gammaLookup s none v = v := rfl

@[simp] theorem gammaLookup_some (base : Nat) (v : Byte) :
    gammaLookup s (some base) v = s.readByte s.cfg.gammaSpace (base + v.toNat) := rfl

@[simp] theorem frameBytes_zero (gamma : Option Nat) (a : Nat) : frameBytes s gamma a 0 = [] := rfl

theorem frameBytes_succ (gamma : Option Nat) (a n : Nat) :
    frameBytes s gamma a (n + 1) =
      gammaLookup s gamma (s.readByte .data a) :: frameBytes s gamma (a + 1) n := rfl

@[simp] theorem length_frameBytes (gamma : Option Nat) (a n : Nat) :
    (frameBytes s gamma a n).length = n := by
  induction n generalizing a with
  | zero => rfl
  | succ n ih => simp [frameBytes_succ, ih]

/-- Byte `i` of a frame is the buffer byte at offset `i` after the gamma stage (R124). -/
theorem getElem?_frameBytes {gamma : Option Nat} {a n i : Nat} (h : i < n) :
    (frameBytes s gamma a n)[i]? = some (gammaLookup s gamma (s.readByte .data (a + i))) := by
  induction n generalizing a i with
  | zero => omega
  | succ n ih =>
    rw [frameBytes_succ]
    cases i with
    | zero => rfl
    | succ i =>
      rw [List.getElem?_cons_succ, ih (by omega), show a + 1 + i = a + (i + 1) by omega]

/-- Two states agree on the frame of a buffer if they agree on every byte it is made of. -/
theorem frameBytes_congr_of_bytes {gamma : Option Nat} {a n : Nat}
    (hg : t.cfg.gammaSpace = s.cfg.gammaSpace)
    (hb : ∀ i, i < n → t.readByte .data (a + i) = s.readByte .data (a + i))
    (ht : ∀ base, gamma = some base → ∀ v, v < gammaEntries →
      t.readByte s.cfg.gammaSpace (base + v) = s.readByte s.cfg.gammaSpace (base + v)) :
    frameBytes t gamma a n = frameBytes s gamma a n := by
  induction n generalizing a with
  | zero => rfl
  | succ n ih =>
    rw [frameBytes_succ, frameBytes_succ, ih]
    · congr 1
      have h0 := hb 0 (by omega)
      simp only [Nat.add_zero] at h0
      cases gamma with
      | none => simpa using h0
      | some base =>
        simp only [gammaLookup_some, h0, hg]
        exact ht base rfl _ (by unfold gammaEntries; exact (s.readByte .data a).isLt)
    · intro i hi
      have := hb (i + 1) (by omega)
      rwa [show a + (i + 1) = a + 1 + i by omega] at this

/-- The frame of a buffer depends on the memories and GAMMA_SPACE only. -/
theorem frameBytes_congr (hg : t.cfg.gammaSpace = s.cfg.gammaSpace) (hd : t.dataMem = s.dataMem)
    (hc : t.constMem = s.constMem) (gamma : Option Nat) (a n : Nat) :
    frameBytes t gamma a n = frameBytes s gamma a n :=
  frameBytes_congr_of_bytes hg (fun _ _ => readByte_congr hd hc _ _)
    (fun _ _ _ _ => readByte_congr hd hc _ _)

/-- The reads of a frame depend on the buffer's bytes and GAMMA_SPACE only (R60). -/
theorem frameReads_congr_of_bytes {gamma : Option Nat} {a n : Nat}
    (hg : t.cfg.gammaSpace = s.cfg.gammaSpace)
    (hb : ∀ i, i < n → t.readByte .data (a + i) = s.readByte .data (a + i)) :
    frameReads t gamma a n = frameReads s gamma a n := by
  induction n generalizing a with
  | zero => rfl
  | succ n ih =>
    have h0 : t.readByte .data a = s.readByte .data a := hb 0 (by omega)
    unfold frameReads
    rw [h0, ih (fun i hi => by rw [show a + 1 + i = a + (i + 1) by omega]; exact hb (i + 1) (by omega))]
    cases gamma <;> simp [gammaReads, hg]

/-! ## The readability check -/

/-- The table passes the check exactly when all 256 entries are readable (R122). -/
theorem tableFault_eq_none {gamma : Option Nat} :
    tableFault s gamma = none ↔ ∀ base, gamma = some base → ∀ v, v < gammaEntries →
      s.readable s.cfg.gammaSpace (base + v) = true := by
  cases gamma with
  | none => simp [tableFault]
  | some base => simp [tableFault, firstUnreadable_eq_none]

/-- An output passes the check exactly when its buffer and its table are readable (R132, R150). -/
theorem regionFault_eq_none {a span : Nat} {gamma : Option Nat} :
    regionFault s a span gamma = none ↔
      (∀ i, i < span → s.readable .data (a + i) = true) ∧ tableFault s gamma = none := by
  unfold regionFault
  cases h : firstUnreadable s .data a span with
  | none => exact ⟨fun h2 => ⟨firstUnreadable_eq_none.1 h, h2⟩, fun h2 => h2.2⟩
  | some b =>
    simp only [reduceCtorEq, false_iff]
    rintro ⟨h1, -⟩
    rw [firstUnreadable_eq_none.2 h1] at h
    exact Option.some_ne_none _ h.symm

/-- A buffer that is not readable faults at its lowest failing address. -/
theorem regionFault_of_buffer {a span k : Nat} {gamma : Option Nat} (hk : k < span)
    (hall : ∀ i, i < k → s.readable .data (a + i) = true) (hbad : s.readable .data (a + k) = false) :
    regionFault s a span gamma = some (.unreadable .data (a + k)) := by
  simp [regionFault, firstUnreadable_of_prefix hk hall hbad]

/-- With a readable buffer, a table that is not readable faults at its lowest failing address. -/
theorem regionFault_of_table {a span base k : Nat}
    (hbuf : ∀ i, i < span → s.readable .data (a + i) = true) (hk : k < gammaEntries)
    (hall : ∀ v, v < k → s.readable s.cfg.gammaSpace (base + v) = true)
    (hbad : s.readable s.cfg.gammaSpace (base + k) = false) :
    regionFault s a span (some base) = some (.unreadable s.cfg.gammaSpace (base + k)) := by
  simp [regionFault, firstUnreadable_eq_none.2 hbuf, tableFault,
    firstUnreadable_of_prefix hk hall hbad]

/-! ## The borrowed region -/

/-- The bytes of a transfer's region in DATA (R30). -/
theorem inTransferRegion_data {a : Nat} :
    s.inTransferRegion .data a = true ↔
      (s.xferAddr ≤ a ∧ a < s.xferAddr + s.xferCount) ∨
        (s.cfg.gammaSpace = .data ∧
          ∃ base, s.xferGamma = some base ∧ base ≤ a ∧ a < base + gammaEntries) := by
  cases hg : s.xferGamma <;>
    simp [State.inTransferRegion, Region.covers, hg, and_assoc]

end Sys2Proof.Machine
end

