-- ==== Sys2Proof/Laws/Timer.lean ====
section
/-! SUPPORT. The bit timer: what one cycle leaves unchanged, and where the timer stands after `k` cycles of a
frame (R107). -/

namespace Sys2Proof.Machine

open Sys2Proof

variable {s t : State}

/-! ## The timing profile -/

/-- The order of a legal profile (R101). -/
theorem legalProfile_iff {p : TimingProfile} :
    legalProfile p = true ↔ 0 < p.tLow ∧ p.tLow < p.tHigh ∧ p.tHigh < p.tTotal := by
  simp [legalProfile, and_assoc]

/-- Each bit has at least one low cycle (R104). -/
theorem thr_lt_tTotal {c : Config} (h : legalProfile c.profile = true) (b : Bool) :
    thr c b < c.profile.tTotal := by
  obtain ⟨-, h1, h2⟩ := legalProfile_iff.1 h
  cases b <;> simp [thr] <;> omega

theorem tTotal_pos {c : Config} (h : legalProfile c.profile = true) : 0 < c.profile.tTotal := by
  obtain ⟨-, h1, h2⟩ := legalProfile_iff.1 h; omega

/-! ## One cycle's frame -/

/-- One timer cycle writes STATE, LINE and the engine's position and shift registers only (R152). -/
theorem timerCycle_frame (s : State) : timerCycle s = { s with
    engine := (timerCycle s).engine, line := (timerCycle s).line
    byteIdx := (timerCycle s).byteIdx, bitIdx := (timerCycle s).bitIdx
    cyc := (timerCycle s).cyc, shift := (timerCycle s).shift } := by
  unfold timerCycle advance nextByte endFrame
  repeat' split
  all_goals rfl

section
variable (s : State)

@[simp] theorem timerCycle_cfg : (timerCycle s).cfg = s.cfg := by rw [timerCycle_frame]
@[simp] theorem timerCycle_holes : (timerCycle s).holes = s.holes := by rw [timerCycle_frame]
@[simp] theorem timerCycle_dataMem : (timerCycle s).dataMem = s.dataMem := by rw [timerCycle_frame]
@[simp] theorem timerCycle_constMem : (timerCycle s).constMem = s.constMem := by rw [timerCycle_frame]
@[simp] theorem timerCycle_initd : (timerCycle s).initd = s.initd := by rw [timerCycle_frame]
@[simp] theorem timerCycle_fault : (timerCycle s).fault = s.fault := by rw [timerCycle_frame]
@[simp] theorem timerCycle_xferAddr : (timerCycle s).xferAddr = s.xferAddr := by rw [timerCycle_frame]
@[simp] theorem timerCycle_xferCount : (timerCycle s).xferCount = s.xferCount := by
  rw [timerCycle_frame]
@[simp] theorem timerCycle_xferGamma : (timerCycle s).xferGamma = s.xferGamma := by
  rw [timerCycle_frame]
@[simp] theorem timerCycle_seq : (timerCycle s).seq = s.seq := by rw [timerCycle_frame]
@[simp] theorem timerCycle_prefetch : (timerCycle s).prefetch = s.prefetch := by rw [timerCycle_frame]
@[simp] theorem timerCycle_wire : (timerCycle s).wire = s.wire := by rw [timerCycle_frame]
@[simp] theorem timerCycle_reads : (timerCycle s).reads = s.reads := by rw [timerCycle_frame]
@[simp] theorem timerCycle_reply : (timerCycle s).reply = s.reply := by rw [timerCycle_frame]
@[simp] theorem timerCycle_inputs : (timerCycle s).inputs = s.inputs := by rw [timerCycle_frame]
@[simp] theorem timerCycle_draws : (timerCycle s).draws = s.draws := by rw [timerCycle_frame]

end

/-! ## The position after `k` cycles -/

/-- The timer stands at cycle `k` of the frame of `bytes`: `k` is its byte, bit and cycle in mixed radix,
and SHIFT holds the byte being emitted, or the last one when the frame is done. -/
structure TimerAt (bytes : List Byte) (k : Nat) (s : State) : Prop where
  seq     : s.seq = bytes
  cyc     : s.cyc = k % s.cfg.profile.tTotal
  bitIdx  : s.bitIdx.val = k / s.cfg.profile.tTotal % 8
  byteIdx : s.byteIdx = k / s.cfg.profile.tTotal / 8
  shift   : bytes[min (k / s.cfg.profile.tTotal / 8) (bytes.length - 1)]? = some s.shift

/-- A frame starts at cycle 0 (R107). -/
theorem timerAt_startFrame {bytes : List Byte} (h : bytes ≠ []) (s : State) :
    TimerAt bytes 0 (startFrame bytes s) := by
  cases bytes with
  | nil => exact absurd rfl h
  | cons v bytes => constructor <;> simp

/-- A position depends on the timer's own registers and the configuration only. -/
theorem TimerAt.congr {bytes : List Byte} {k : Nat} (h : TimerAt bytes k s) (hc : t.cfg = s.cfg)
    (h1 : t.seq = s.seq) (h2 : t.cyc = s.cyc) (h3 : t.bitIdx = s.bitIdx)
    (h4 : t.byteIdx = s.byteIdx) (h5 : t.shift = s.shift) : TimerAt bytes k t := by
  constructor
  · rw [h1, h.seq]
  · rw [h2, hc, h.cyc]
  · rw [h3, hc, h.bitIdx]
  · rw [h4, hc, h.byteIdx]
  · rw [h5, hc, h.shift]

/-- Inside the frame, the byte index is below the frame's length. -/
theorem div_div_lt_length {n T k : Nat} (hk : k < 8 * n * T) : k / T / 8 < n := by
  rw [Nat.div_div_eq_div_mul]
  apply Nat.div_lt_of_lt_mul
  calc k < 8 * n * T := hk
    _ = T * 8 * n := by ring

theorem succ_div_mod_of_lt {k T : Nat} (h : k % T + 1 < T) :
    (k + 1) / T = k / T ∧ (k + 1) % T = k % T + 1 := by
  have hT : 0 < T := by omega
  have hk := Nat.div_add_mod k T
  have e : k + 1 = T * (k / T) + (k % T + 1) := by omega
  constructor
  · rw [e, Nat.mul_add_div hT, Nat.div_eq_of_lt h]; omega
  · conv_lhs => rw [e]
    rw [Nat.mul_add_mod, Nat.mod_eq_of_lt h]

theorem succ_div_mod_of_eq {k T : Nat} (hT : 0 < T) (h : ¬ k % T + 1 < T) :
    (k + 1) / T = k / T + 1 ∧ (k + 1) % T = 0 := by
  have hk := Nat.div_add_mod k T
  have hl := Nat.mod_lt k hT
  have e : k + 1 = T * (k / T + 1) := by rw [Nat.mul_add]; omega
  constructor
  · rw [e, Nat.mul_div_cancel_left _ hT]
  · rw [e, Nat.mul_mod_right]

/-- One cycle inside a frame moves the position by one, leaves the line at the closed form's level
(R106, R109), and makes the engine idle in the frame's last cycle and no other (R111). -/
theorem timerCycle_at {bytes : List Byte} {k : Nat} (hl : legalProfile s.cfg.profile = true)
    (h : TimerAt bytes k s) (hk : k < frameCycles s.cfg bytes.length) :
    TimerAt bytes (k + 1) (timerCycle s) ∧
      (timerCycle s).line = level s.cfg bytes k ∧
      (timerCycle s).engine =
        if k + 1 = frameCycles s.cfg bytes.length then .idle else s.engine := by
  have hT := tTotal_pos hl
  unfold frameCycles at hk ⊢
  have hb : k / s.cfg.profile.tTotal / 8 < bytes.length := div_div_lt_length hk
  have hen : s.byteIdx < s.seq.length := by rw [h.byteIdx, h.seq]; exact hb
  have hsh : bytes[k / s.cfg.profile.tTotal / 8]? = some s.shift := by
    have := h.shift; rwa [Nat.min_eq_left (by omega)] at this
  have hbit : s.currentBit = frameBit bytes (k / s.cfg.profile.tTotal) := by
    unfold State.currentBit frameBit
    rw [h.bitIdx, List.getD_eq_getElem?_getD, hsh]; rfl
  have hlast : ∀ q, k / s.cfg.profile.tTotal = q → k + 1 = 8 * bytes.length * s.cfg.profile.tTotal →
      k % s.cfg.profile.tTotal + 1 = s.cfg.profile.tTotal ∧ q + 1 = 8 * bytes.length := by
    rintro q rfl e
    have hk := Nat.div_add_mod k s.cfg.profile.tTotal
    by_cases hc : k % s.cfg.profile.tTotal + 1 < s.cfg.profile.tTotal
    · have := (succ_div_mod_of_lt hc).2
      rw [e, Nat.mul_mod_left] at this; omega
    · have h1 := (succ_div_mod_of_eq hT hc).1
      rw [e, Nat.mul_div_cancel _ hT] at h1
      exact ⟨by have := Nat.mod_lt k hT; omega, by omega⟩
  have hline : decide (s.cyc < thr s.cfg s.currentBit) = level s.cfg bytes k := by
    unfold level; rw [h.cyc, hbit]
  unfold timerCycle
  rw [if_pos hen, hline]
  unfold advance
  dsimp only
  by_cases hc : k % s.cfg.profile.tTotal + 1 < s.cfg.profile.tTotal
  · obtain ⟨e1, e2⟩ := succ_div_mod_of_lt hc
    rw [if_pos (by rw [h.cyc]; exact hc)]
    refine ⟨⟨h.seq, ?_, ?_, ?_, ?_⟩, rfl, ?_⟩
    · dsimp only; rw [h.cyc, e2]
    · dsimp only; rw [h.bitIdx, e1]
    · dsimp only; rw [h.byteIdx, e1]
    · dsimp only; rw [e1]; exact h.shift
    · rw [if_neg]; intro e; exact absurd (hlast _ rfl e).1 (by omega)
  · obtain ⟨e1, e2⟩ := succ_div_mod_of_eq hT hc
    rw [if_neg (by rw [h.cyc]; exact hc)]
    by_cases hbi : s.bitIdx.val < 7
    · rw [if_pos hbi]
      have hv : (s.bitIdx + 1).val = s.bitIdx.val + 1 := by
        rw [Fin.val_add]; simp; omega
      have hb2 := h.bitIdx
      refine ⟨⟨h.seq, ?_, ?_, ?_, ?_⟩, rfl, ?_⟩
      · dsimp only; rw [e2]
      · dsimp only; rw [hv, hb2, e1]; omega
      · dsimp only; rw [h.byteIdx, e1]; omega
      · dsimp only; rw [e1, show (k / s.cfg.profile.tTotal + 1) / 8 = k / s.cfg.profile.tTotal / 8 by omega]
        exact h.shift
      · rw [if_neg]; intro e; have := (hlast _ rfl e).2; omega
    · rw [if_neg hbi]
      have hb2 := h.bitIdx
      have e3 : (k / s.cfg.profile.tTotal + 1) / 8 = k / s.cfg.profile.tTotal / 8 + 1 := by omega
      unfold nextByte endFrame
      dsimp only
      have hseq := h.seq
      rw [hseq, h.byteIdx]
      cases hn : bytes[k / s.cfg.profile.tTotal / 8 + 1]? with
      | some v =>
        have hlt : k / s.cfg.profile.tTotal / 8 + 1 < bytes.length := by
          rw [List.getElem?_eq_some_iff] at hn; exact hn.1
        refine ⟨⟨rfl, ?_, ?_, ?_, ?_⟩, rfl, ?_⟩
        · dsimp only; rw [e2]
        · dsimp only; rw [e1]; simp; omega
        · dsimp only; rw [e1, e3]
        · dsimp only; rw [e1, e3, Nat.min_eq_left (by omega)]; exact hn
        · rw [if_neg]; intro e; have := (hlast _ rfl e).2; omega
      | none =>
        have hge : bytes.length ≤ k / s.cfg.profile.tTotal / 8 + 1 := by
          rw [List.getElem?_eq_none_iff] at hn; exact hn
        refine ⟨⟨rfl, ?_, ?_, ?_, ?_⟩, rfl, ?_⟩
        · dsimp only; rw [e2]
        · dsimp only; rw [e1]; simp; omega
        · dsimp only; rw [e1, e3]
        · have e4 : bytes.length - 1 = k / s.cfg.profile.tTotal / 8 := by
            generalize k / s.cfg.profile.tTotal = q at hge hb; omega
          dsimp only; rw [e1, e3, e4, Nat.min_eq_right (Nat.le_succ _)]; exact hsh
        · rw [if_pos]
          have hk8 : k / s.cfg.profile.tTotal + 1 = 8 * bytes.length := by omega
          have hkk := Nat.div_add_mod k s.cfg.profile.tTotal
          have hm := Nat.mod_lt k hT
          rw [← hk8, Nat.mul_comm, Nat.mul_add]; omega

/-- Past its frame the timer has no cycle (R107). -/
theorem timerCycle_done (h : s.seq.length ≤ s.byteIdx) : timerCycle s = s := by
  unfold timerCycle; rw [if_neg (by omega)]

/-! ## Repeated cycles -/

@[simp] theorem repeatCycle_zero (f : State → State) (s : State) : repeatCycle f 0 s = s := rfl

theorem repeatCycle_succ (f : State → State) (n : Nat) (s : State) :
    repeatCycle f (n + 1) s = repeatCycle f n (f s) := rfl

/-- The last cycle may be split off instead of the first. -/
theorem repeatCycle_succ_right (f : State → State) (n : Nat) (s : State) :
    repeatCycle f (n + 1) s = f (repeatCycle f n s) := by
  induction n generalizing s with
  | zero => rfl
  | succ n ih => rw [repeatCycle_succ, ih]; rfl

/-- A property that one cycle keeps is kept by any number. -/
theorem repeatCycle_keeps {f : State → State} {P : State → Prop} (h : ∀ s, P s → P (f s)) (n : Nat)
    {s : State} (hs : P s) : P (repeatCycle f n s) := by
  induction n generalizing s with
  | zero => exact hs
  | succ n ih => exact ih (h s hs)

/-- A field that one cycle leaves alone is left alone by any number. -/
theorem repeatCycle_field {β : Type} {f : State → State} (g : State → β) (h : ∀ s, g (f s) = g s)
    (n : Nat) (s : State) : g (repeatCycle f n s) = g s :=
  repeatCycle_keeps (P := fun t => g t = g s) (fun t ht => (h t).trans ht) n rfl

end Sys2Proof.Machine
end

