-- ==== Sys2Proof/Laws/Exec.lean ====
section
/-! SUPPORT. What each command can answer: one inversion lemma per meaning ("if it answers next t, then one
of these cases holds"), and the frame of Tier A's blocking emission. -/

namespace Sys2Proof.Machine

open Sys2Proof

variable {s t : State}

/-! ## The dispatch -/

@[simp] theorem exec_wsInit : exec .wsInit s = execWsInit s := rfl

@[simp] theorem exec_wsOut (data count : Nat) (gamma : Option Nat) :
    exec (.wsOut data count gamma) s = execWsOut data count gamma s := rfl

@[simp] theorem exec_wsOuta (data count : Nat) (gamma : Option Nat) :
    exec (.wsOuta data count gamma) s = execWsOuta data count gamma s := rfl

@[simp] theorem exec_wsCheck : exec .wsCheck s = execWsCheck s := rfl

/-! ## Inversion -/

/-- What INIT answers (R130). -/
theorem execWsInit_next (h : execWsInit s = .next t) :
    s.fault = none ∧
      ((s.cfg.tier = .b ∧ s.engine = .transferring ∧
          t = { s with fault := some .initWhileBusy }) ∨
        (¬ (s.cfg.tier = .b ∧ s.engine = .transferring) ∧
          t = { s with line := false, initd := true, reply := none })) := by
  obtain ⟨hf, h⟩ := running_next h
  refine ⟨hf, ?_⟩
  split at h
  · rename_i hb
    rw [raised_of_none hf] at h
    cases h; exact Or.inl ⟨hb.1, hb.2, rfl⟩
  · cases h; exact Or.inr ⟨‹_›, rfl⟩

/-- What OUTPUT_SYNC answers (R132): a fault with nothing else written, or the whole frame. -/
theorem execWsOut_next {data count : Nat} {gamma : Option Nat}
    (h : execWsOut data count gamma s = .next t) :
    s.fault = none ∧
      ((∃ f, t = { s with fault := some f }) ∨
        (s.cfg.tier = .a ∧ s.initd = true ∧ count ≠ 0 ∧
          regionFault s data (tierASpan count gamma) gamma = none ∧
          t = withoutReply (emitBlocking data count gamma s))) := by
  obtain ⟨hf, h⟩ := running_next h
  refine ⟨hf, ?_⟩
  simp only [raised_of_none hf] at h
  split at h
  · cases h; exact Or.inl ⟨_, rfl⟩
  · split at h
    · cases h; exact Or.inl ⟨_, rfl⟩
    · split at h
      · cases h; exact Or.inl ⟨_, rfl⟩
      · split at h
        · cases h; exact Or.inl ⟨_, rfl⟩
        · cases h; exact Or.inr ⟨by simp_all, by simp_all, ‹_›, ‹_›, rfl⟩

/-- What OUTPUT_ASYNC answers (R150): a fault with nothing else written, Busy, or an armed transfer. -/
theorem execWsOuta_next {data count : Nat} {gamma : Option Nat}
    (h : execWsOuta data count gamma s = .next t) :
    s.fault = none ∧
      ((∃ f, t = { s with fault := some f }) ∨
        (s.cfg.tier = .b ∧ s.initd = true ∧ count ≠ 0 ∧ s.engine = .transferring ∧
          t = withReply statusBusy s) ∨
        (s.cfg.tier = .b ∧ s.initd = true ∧ count ≠ 0 ∧ s.engine = .idle ∧
          regionFault s data count gamma = none ∧
          t = withReply statusAccepted (armTransfer data count gamma s))) := by
  obtain ⟨hf, h⟩ := running_next h
  refine ⟨hf, ?_⟩
  simp only [raised_of_none hf] at h
  split at h
  · cases h; exact Or.inl ⟨_, rfl⟩
  · split at h
    · cases h; exact Or.inl ⟨_, rfl⟩
    · split at h
      · cases h; exact Or.inl ⟨_, rfl⟩
      · split at h
        · cases h; exact Or.inr (Or.inl ⟨by simp_all, by simp_all, ‹_›, ‹_›, rfl⟩)
        · split at h
          · cases h; exact Or.inl ⟨_, rfl⟩
          · have he : s.engine = .idle := by cases hs : s.engine <;> simp_all
            cases h; exact Or.inr (Or.inr ⟨by simp_all, by simp_all, ‹_›, he, ‹_›, rfl⟩)

/-- What CHECK_STATUS answers (R156). -/
theorem execWsCheck_next (h : execWsCheck s = .next t) :
    s.fault = none ∧
      ((∃ f, t = { s with fault := some f }) ∨
        (s.cfg.tier = .b ∧ s.initd = true ∧ t = withReply (engineStatus s.engine) s)) := by
  obtain ⟨hf, h⟩ := running_next h
  refine ⟨hf, ?_⟩
  simp only [raised_of_none hf] at h
  split at h
  · cases h; exact Or.inl ⟨_, rfl⟩
  · split at h
    · cases h; exact Or.inl ⟨_, rfl⟩
    · cases h; exact Or.inr ⟨by simp_all, by simp_all, rfl⟩

/-! ## The blocking emission -/

/-- The prefetch writes PREFETCH only (R29). -/
theorem prefetchNext_frame (s : State) :
    prefetchNext s = { s with prefetch := (prefetchNext s).prefetch } := by
  unfold prefetchNext
  repeat' split
  all_goals rfl

section
variable (s : State)

@[simp] theorem prefetchNext_cfg : (prefetchNext s).cfg = s.cfg := by rw [prefetchNext_frame]
@[simp] theorem prefetchNext_holes : (prefetchNext s).holes = s.holes := by rw [prefetchNext_frame]
@[simp] theorem prefetchNext_dataMem : (prefetchNext s).dataMem = s.dataMem := by rw [prefetchNext_frame]
@[simp] theorem prefetchNext_constMem : (prefetchNext s).constMem = s.constMem := by rw [prefetchNext_frame]
@[simp] theorem prefetchNext_initd : (prefetchNext s).initd = s.initd := by rw [prefetchNext_frame]
@[simp] theorem prefetchNext_engine : (prefetchNext s).engine = s.engine := by rw [prefetchNext_frame]
@[simp] theorem prefetchNext_line : (prefetchNext s).line = s.line := by rw [prefetchNext_frame]
@[simp] theorem prefetchNext_fault : (prefetchNext s).fault = s.fault := by rw [prefetchNext_frame]
@[simp] theorem prefetchNext_xferAddr : (prefetchNext s).xferAddr = s.xferAddr := by rw [prefetchNext_frame]
@[simp] theorem prefetchNext_xferCount : (prefetchNext s).xferCount = s.xferCount := by rw [prefetchNext_frame]
@[simp] theorem prefetchNext_xferGamma : (prefetchNext s).xferGamma = s.xferGamma := by rw [prefetchNext_frame]
@[simp] theorem prefetchNext_seq : (prefetchNext s).seq = s.seq := by rw [prefetchNext_frame]
@[simp] theorem prefetchNext_byteIdx : (prefetchNext s).byteIdx = s.byteIdx := by rw [prefetchNext_frame]
@[simp] theorem prefetchNext_bitIdx : (prefetchNext s).bitIdx = s.bitIdx := by rw [prefetchNext_frame]
@[simp] theorem prefetchNext_cyc : (prefetchNext s).cyc = s.cyc := by rw [prefetchNext_frame]
@[simp] theorem prefetchNext_shift : (prefetchNext s).shift = s.shift := by rw [prefetchNext_frame]
@[simp] theorem prefetchNext_wire : (prefetchNext s).wire = s.wire := by rw [prefetchNext_frame]
@[simp] theorem prefetchNext_reads : (prefetchNext s).reads = s.reads := by rw [prefetchNext_frame]
@[simp] theorem prefetchNext_reply : (prefetchNext s).reply = s.reply := by rw [prefetchNext_frame]
@[simp] theorem prefetchNext_inputs : (prefetchNext s).inputs = s.inputs := by rw [prefetchNext_frame]
@[simp] theorem prefetchNext_draws : (prefetchNext s).draws = s.draws := by rw [prefetchNext_frame]

@[simp] theorem syncCycle_cfg : (syncCycle s).cfg = s.cfg := by simp [syncCycle]
@[simp] theorem syncCycle_holes : (syncCycle s).holes = s.holes := by simp [syncCycle]
@[simp] theorem syncCycle_dataMem : (syncCycle s).dataMem = s.dataMem := by simp [syncCycle]
@[simp] theorem syncCycle_constMem : (syncCycle s).constMem = s.constMem := by simp [syncCycle]
@[simp] theorem syncCycle_initd : (syncCycle s).initd = s.initd := by simp [syncCycle]
@[simp] theorem syncCycle_fault : (syncCycle s).fault = s.fault := by simp [syncCycle]
@[simp] theorem syncCycle_xferAddr : (syncCycle s).xferAddr = s.xferAddr := by simp [syncCycle]
@[simp] theorem syncCycle_xferCount : (syncCycle s).xferCount = s.xferCount := by simp [syncCycle]
@[simp] theorem syncCycle_xferGamma : (syncCycle s).xferGamma = s.xferGamma := by simp [syncCycle]
@[simp] theorem syncCycle_seq : (syncCycle s).seq = s.seq := by simp [syncCycle]
@[simp] theorem syncCycle_wire : (syncCycle s).wire = s.wire := by simp [syncCycle]
@[simp] theorem syncCycle_reads : (syncCycle s).reads = s.reads := by simp [syncCycle]
@[simp] theorem syncCycle_reply : (syncCycle s).reply = s.reply := by simp [syncCycle]
@[simp] theorem syncCycle_inputs : (syncCycle s).inputs = s.inputs := by simp [syncCycle]
@[simp] theorem syncCycle_draws : (syncCycle s).draws = s.draws := by simp [syncCycle]
@[simp] theorem syncCycle_engine : (syncCycle s).engine = (timerCycle s).engine := by simp [syncCycle]
@[simp] theorem syncCycle_line : (syncCycle s).line = (timerCycle s).line := by simp [syncCycle]
@[simp] theorem syncCycle_byteIdx : (syncCycle s).byteIdx = (timerCycle s).byteIdx := by simp [syncCycle]
@[simp] theorem syncCycle_bitIdx : (syncCycle s).bitIdx = (timerCycle s).bitIdx := by simp [syncCycle]
@[simp] theorem syncCycle_cyc : (syncCycle s).cyc = (timerCycle s).cyc := by simp [syncCycle]
@[simp] theorem syncCycle_shift : (syncCycle s).shift = (timerCycle s).shift := by simp [syncCycle]

end

/-- Without a table there is no prefetch (R29). -/
theorem prefetchNext_none (h : s.xferGamma = none) : prefetchNext s = s := by
  simp [prefetchNext, h]

/-- What PREFETCH holds after a cycle (R29). -/
theorem prefetchNext_prefetch {base : Nat} (h : s.xferGamma = some base)
    (hb : s.byteIdx < s.seq.length) :
    (prefetchNext s).prefetch = s.readByte .data (s.xferAddr + s.byteIdx + 1) := by
  simp [prefetchNext, h, hb]

/-- After the frame PREFETCH keeps what it holds. -/
theorem prefetchNext_done (h : s.seq.length ≤ s.byteIdx) : prefetchNext s = s := by
  unfold prefetchNext
  split
  · rfl
  · rw [if_neg (by omega)]

/-- One cycle of the blocking emission moves the timer as `timerCycle_at` says. -/
theorem syncCycle_at {bytes : List Byte} {k : Nat} (hl : legalProfile s.cfg.profile = true)
    (h : TimerAt bytes k s) (hk : k < frameCycles s.cfg bytes.length) :
    TimerAt bytes (k + 1) (syncCycle s) ∧
      (syncCycle s).line = level s.cfg bytes k ∧
      (syncCycle s).engine =
        if k + 1 = frameCycles s.cfg bytes.length then .idle else s.engine := by
  obtain ⟨h1, h2, h3⟩ := timerCycle_at hl h hk
  exact ⟨h1.congr (by simp) (by simp) (by simp) (by simp) (by simp) (by simp), by simp [h2],
    by simp [h3]⟩

/-! Any number of cycles leave everything but the timer's registers, LINE, STATE and PREFETCH as it was. -/

section
variable (n : Nat) (s : State)

@[simp] theorem repeatCycle_syncCycle_cfg : (repeatCycle syncCycle n s).cfg = s.cfg :=
  repeatCycle_field _ syncCycle_cfg n s
@[simp] theorem repeatCycle_syncCycle_holes : (repeatCycle syncCycle n s).holes = s.holes :=
  repeatCycle_field _ syncCycle_holes n s
@[simp] theorem repeatCycle_syncCycle_dataMem : (repeatCycle syncCycle n s).dataMem = s.dataMem :=
  repeatCycle_field _ syncCycle_dataMem n s
@[simp] theorem repeatCycle_syncCycle_constMem : (repeatCycle syncCycle n s).constMem = s.constMem :=
  repeatCycle_field _ syncCycle_constMem n s
@[simp] theorem repeatCycle_syncCycle_initd : (repeatCycle syncCycle n s).initd = s.initd :=
  repeatCycle_field _ syncCycle_initd n s
@[simp] theorem repeatCycle_syncCycle_fault : (repeatCycle syncCycle n s).fault = s.fault :=
  repeatCycle_field _ syncCycle_fault n s
@[simp] theorem repeatCycle_syncCycle_xferAddr : (repeatCycle syncCycle n s).xferAddr = s.xferAddr :=
  repeatCycle_field _ syncCycle_xferAddr n s
@[simp] theorem repeatCycle_syncCycle_xferCount : (repeatCycle syncCycle n s).xferCount = s.xferCount :=
  repeatCycle_field _ syncCycle_xferCount n s
@[simp] theorem repeatCycle_syncCycle_xferGamma : (repeatCycle syncCycle n s).xferGamma = s.xferGamma :=
  repeatCycle_field _ syncCycle_xferGamma n s
@[simp] theorem repeatCycle_syncCycle_seq : (repeatCycle syncCycle n s).seq = s.seq :=
  repeatCycle_field _ syncCycle_seq n s
@[simp] theorem repeatCycle_syncCycle_wire : (repeatCycle syncCycle n s).wire = s.wire :=
  repeatCycle_field _ syncCycle_wire n s
@[simp] theorem repeatCycle_syncCycle_reads : (repeatCycle syncCycle n s).reads = s.reads :=
  repeatCycle_field _ syncCycle_reads n s
@[simp] theorem repeatCycle_syncCycle_reply : (repeatCycle syncCycle n s).reply = s.reply :=
  repeatCycle_field _ syncCycle_reply n s
@[simp] theorem repeatCycle_syncCycle_inputs : (repeatCycle syncCycle n s).inputs = s.inputs :=
  repeatCycle_field _ syncCycle_inputs n s
@[simp] theorem repeatCycle_syncCycle_draws : (repeatCycle syncCycle n s).draws = s.draws :=
  repeatCycle_field _ syncCycle_draws n s

end

/-- The timer stands at cycle `k` after `k` cycles of the blocking emission. -/
theorem repeatCycle_syncCycle_at {bytes : List Byte} (hl : legalProfile s.cfg.profile = true)
    (h : TimerAt bytes 0 s) {k : Nat} (hk : k ≤ frameCycles s.cfg bytes.length) :
    TimerAt bytes k (repeatCycle syncCycle k s) := by
  induction k with
  | zero => exact h
  | succ k ih =>
    have hc : (repeatCycle syncCycle k s).cfg = s.cfg := repeatCycle_syncCycle_cfg k s
    rw [repeatCycle_succ_right]
    exact (syncCycle_at (by rw [hc]; exact hl) (ih (by omega)) (by rw [hc]; omega)).1

/-- The blocking emission starts at cycle 0 of its frame (R132). -/
theorem timerAt_syncStart {addr n : Nat} {gamma : Option Nat} (hn : n ≠ 0) :
    TimerAt (frameBytes s gamma addr n) 0 (syncStart addr n gamma s) := by
  have hne : frameBytes s gamma addr n ≠ [] := by
    intro e
    have := length_frameBytes (s := s) gamma addr n
    rw [e] at this; exact hn this.symm
  unfold syncStart
  rw [prefetchNext_frame]
  exact (timerAt_startFrame hne
    (recordReads (frameReads s gamma addr n ++ trailingReads gamma addr n)
      (loadTransfer addr n gamma s))).congr rfl rfl rfl rfl rfl rfl

@[simp] theorem syncStart_cfg (addr n : Nat) (gamma : Option Nat) :
    (syncStart addr n gamma s).cfg = s.cfg := by
  unfold syncStart; rw [prefetchNext_frame]; rfl

/-- A cycle's PREFETCH is what the prefetch after the timer cycle leaves (R29). -/
theorem syncCycle_prefetch (s : State) : (syncCycle s).prefetch = (prefetchNext (timerCycle s)).prefetch := rfl

/-- Inside a frame with gamma, PREFETCH runs one byte ahead of the byte being emitted (R29). -/
theorem repeatCycle_syncCycle_prefetch {d n b k : Nat} (hl : legalProfile s.cfg.profile = true) (hn : n ≠ 0)
    (hk : k < frameCycles s.cfg n) :
    (repeatCycle syncCycle k (syncStart d n (some b) s)).prefetch =
      s.readByte .data (d + k / s.cfg.profile.tTotal / 8 + 1) := by
  have h0 := timerAt_syncStart (s := s) (addr := d) (gamma := some b) hn
  have hlen : (frameBytes s (some b) d n).length = n := length_frameBytes ..
  cases k with
  | zero =>
    simp [syncStart, prefetchNext, hlen, Nat.pos_of_ne_zero hn]
    exact readByte_congr rfl rfl _ _
  | succ k =>
    have h1 := repeatCycle_syncCycle_at (by simpa using hl) h0 (k := k + 1) (by simp [hlen]; omega)
    have hb := h1.byteIdx
    simp only [repeatCycle_syncCycle_cfg, syncStart_cfg] at hb
    have hlt : (k + 1) / s.cfg.profile.tTotal / 8 < n := div_div_lt_length hk
    rw [repeatCycle_succ_right] at hb ⊢
    rw [syncCycle_byteIdx] at hb
    rw [syncCycle_prefetch]
    rw [prefetchNext_prefetch (base := b) (by simp [syncStart]) (by rw [hb]; simpa [syncStart, hlen] using hlt), hb]
    rw [readByte_congr (s := s) (by simp [syncStart]) (by simp [syncStart])]
    simp [syncStart]

/-- The whole effect of the blocking emission (R132): every register after the frame's last cycle. -/
theorem emitBlocking_eq {d n : Nat} {g : Option Nat} (hl : legalProfile s.cfg.profile = true) (hn : n ≠ 0) :
    withoutReply (emitBlocking d n g s) = { s with
      xferAddr := d, xferCount := n, xferGamma := g
      seq := frameBytes s g d n
      byteIdx := n, bitIdx := 0, cyc := 0
      shift := (frameBytes s g d n).getLastD 0
      prefetch := if g = none then s.prefetch else s.readByte .data (d + n)
      line := false, engine := .idle
      wire := s.wire ++ [.gap, .frame (frameBytes s g d n)]
      reads := s.reads ++ (frameReads s g d n ++ trailingReads g d n)
      reply := none } := by
  have hT := tTotal_pos hl
  have h0 := timerAt_syncStart (s := s) (addr := d) (gamma := g) hn
  have hlc : legalProfile (syncStart d n g s).cfg.profile = true := by simpa using hl
  have hlen : (frameBytes s g d n).length = n := length_frameBytes ..
  obtain ⟨m, hm⟩ : ∃ m, frameCycles s.cfg n = m + 1 := ⟨frameCycles s.cfg n - 1, by
    have : 0 < frameCycles s.cfg n := by unfold frameCycles; positivity
    omega⟩
  have h1 := repeatCycle_syncCycle_at hlc h0 (k := m) (by simp [hlen]; omega)
  have h2 := syncCycle_at (by simpa using hl) h1 (by simp [hlen]; omega)
  rw [← repeatCycle_succ_right syncCycle] at h2
  obtain ⟨h3, h4, h5⟩ := h2
  simp only [repeatCycle_syncCycle_cfg, syncStart_cfg, hlen, ← hm] at h4 h5
  have e1 : frameCycles s.cfg n / s.cfg.profile.tTotal = 8 * n := by
    unfold frameCycles; exact Nat.mul_div_cancel _ hT
  have e2 : frameCycles s.cfg n % s.cfg.profile.tTotal = 0 := by
    unfold frameCycles; exact Nat.mul_mod_left _ _
  rw [← hm] at h3
  unfold emitBlocking
  have hb := h3.byteIdx
  have hi := h3.bitIdx
  have hc := h3.cyc
  have hs := h3.shift
  simp only [repeatCycle_syncCycle_cfg, syncStart_cfg] at hb hi hc hs
  rw [e1] at hb hi hs
  rw [e2] at hc
  apply State.ext <;> try rfl
  all_goals simp only [withoutReply_engine, withoutReply_line, withoutReply_byteIdx, withoutReply_bitIdx,
    withoutReply_cyc, withoutReply_shift, withoutReply_prefetch]
  all_goals try (simp [syncStart]; done)
  · rw [h5]; simp
  · rw [h4]
    unfold level
    have e3 : m % s.cfg.profile.tTotal = s.cfg.profile.tTotal - 1 := by
      by_contra hne
      have hlt := Nat.mod_lt m hT
      have := (succ_div_mod_of_lt (k := m) (T := s.cfg.profile.tTotal) (by omega)).2
      rw [← hm, e2] at this; omega
    have := thr_lt_tTotal hl (frameBit (frameBytes s g d n) (m / s.cfg.profile.tTotal))
    simp [e3]; omega
  · rw [hb]; omega
  · apply Fin.ext; rw [hi]; simp
  · rw [hc]
  · rw [hlen] at hs
    have : min (8 * n / 8) (n - 1) = n - 1 := by omega
    rw [this] at hs
    rw [List.getLastD_eq_getLast?, List.getLast?_eq_getElem?, hlen, hs]; rfl
  · cases hg : g with
    | none =>
      subst hg
      have : ∀ k, (repeatCycle syncCycle k (syncStart d n none s)).prefetch = s.prefetch := by
        intro k
        induction k with
        | zero => simp [syncStart, prefetchNext]
        | succ k ih =>
          rw [repeatCycle_succ_right, syncCycle_prefetch, prefetchNext_none (by simp [syncStart]), timerCycle_prefetch, ih]
      simp [this]
    | some b =>
      subst hg
      have hp := repeatCycle_syncCycle_prefetch (d := d) (b := b) hl hn (k := m) (by omega)
      rw [hm, repeatCycle_succ_right]
      have hdone : (timerCycle (repeatCycle syncCycle m (syncStart d n (some b) s))).byteIdx = n := by
        have := hb; rw [hm, repeatCycle_succ_right, syncCycle_byteIdx] at this; omega
      rw [syncCycle_prefetch, prefetchNext_done, timerCycle_prefetch]
      · have hq : m / s.cfg.profile.tTotal / 8 = n - 1 := by
          have e3 : m / s.cfg.profile.tTotal + 1 = 8 * n := by
            by_cases hc : m % s.cfg.profile.tTotal + 1 < s.cfg.profile.tTotal
            · have := (succ_div_mod_of_lt hc).2; rw [← hm, e2] at this; omega
            · have := (succ_div_mod_of_eq hT hc).1; rw [← hm, e1] at this; omega
          omega
        rw [show (repeatCycle syncCycle m (syncStart d n (some b) s)).prefetch = _ from hp, hq]
        simp; congr 1; omega
      · rw [hdone]; simp [syncStart, hlen]

/-- The whole effect of arming a transfer (R151). -/
theorem armTransfer_eq (d n : Nat) (g : Option Nat) : armTransfer d n g s = { s with
    xferAddr := d, xferCount := n, xferGamma := g
    seq := frameBytes s g d n
    byteIdx := 0, bitIdx := 0, cyc := 0
    shift := (frameBytes s g d n).headD 0
    engine := .transferring
    wire := s.wire ++ [.gap, .frame (frameBytes s g d n)]
    reads := s.reads ++ frameReads s g d n } := rfl

/-- The armed transfer starts at cycle 0 of its frame (R151). -/
theorem timerAt_armTransfer {addr n : Nat} {gamma : Option Nat} (hn : n ≠ 0) :
    TimerAt (frameBytes s gamma addr n) 0 (armTransfer addr n gamma s) := by
  have hne : frameBytes s gamma addr n ≠ [] := by
    intro e
    have := length_frameBytes (s := s) gamma addr n
    rw [e] at this; exact hn this.symm
  exact (timerAt_startFrame hne
    (recordReads (frameReads s gamma addr n) (loadTransfer addr n gamma s))).congr
      rfl rfl rfl rfl rfl rfl

end Sys2Proof.Machine
end

