-- ==== Sys2Proof/Laws/Step.lean ====
section
/-! SUPPORT. What a step can do, said once: which event it took and what that event did. -/

namespace Sys2Proof.Machine

open Sys2Proof

variable {s t : State}

/-- In a legal build a step is the next event of the schedule (R101). -/
theorem step_of_legal (h : legalProfile s.cfg.profile = true) : step s = agentStep s := by
  simp [step, buildStep, h]

/-- In a legal build and an unfaulted state a host event is the host's step. -/
theorem step_of_host {a : HostAction} {rest : List Event} (hl : legalProfile s.cfg.profile = true)
    (hf : s.fault = none) (hi : s.inputs = .host a :: rest) :
    step s = hostStep a (takeEvent rest s) := by
  rw [step_of_legal hl]; unfold agentStep; rw [hi]; exact running_of_none hf

/-- An engine slot is one timer cycle or nothing (R152). -/
theorem engineSlot_cases (s : State) :
    (s.engineEnabled = true ∧ engineSlot s = timerCycle s) ∨
      (s.engineEnabled = false ∧ engineSlot s = s) := by
  cases h : s.engineEnabled
  · exact Or.inr ⟨rfl, by simp [engineSlot, h]⟩
  · exact Or.inl ⟨rfl, by simp [engineSlot, h]⟩

/-- The engine's condition (R152). -/
theorem engineEnabled_iff : s.engineEnabled = true ↔
    s.cfg.tier = .b ∧ s.engine = .transferring ∧ s.byteIdx < s.xferCount ∧ s.fault = none := by
  simp [State.engineEnabled, and_assoc]

/-- What a host command answers: its word decodes and runs, or is illegal (R72). -/
theorem hostCommand_next {w : Nat} (h : hostCommand w s = .next t) :
    (∃ i, decode s.cfg w = .command i ∧ exec i s = .next t) ∨
      (∃ op, decode s.cfg w = .illegal op ∧ t = raise (.illegalCommand op) s) := by
  unfold hostCommand at h
  cases hd : decode s.cfg w with
  | command i => rw [hd] at h; exact Or.inl ⟨i, rfl, h⟩
  | illegal op => rw [hd] at h; cases h; exact Or.inr ⟨op, rfl, rfl⟩

/-- What a host write answers (R62): it is to DATA, inside the space, and it faults or stores. -/
theorem hostWrite_next {space : Space} {a : Nat} {v : Byte} (h : hostWrite space a v s = .next t) :
    space = .data ∧ a < spaceSize s.cfg ∧
      ((s.borrowed .data a = true ∧ t = raise (.writeInFlight .data a) s) ∨
        (s.borrowed .data a = false ∧ t = storeData a v s)) := by
  cases space with
  | const => cases h
  | data =>
    unfold hostWrite at h
    dsimp only at h
    split at h
    · cases h
    · split at h
      · cases h; exact ⟨rfl, by omega, Or.inl ⟨‹_›, rfl⟩⟩
      · cases h; exact ⟨rfl, by omega, Or.inr ⟨by simp_all, rfl⟩⟩

/-- What a host read answers (R62): the memory's value, or a free one where it is not readable. -/
theorem hostRead_next {space : Space} {a : Nat} (h : hostRead space a s = .next t) :
    a < spaceSize s.cfg ∧
      ((s.readable space a = true ∧ t = withReply (s.readByte space a) s) ∨
        (s.readable space a = false ∧
          t = withReply (BitVec.ofNat 8 (s.free 0)) { s with draws := s.draws + 1 })) := by
  unfold hostRead at h
  split at h
  · cases h
  · split at h
    · cases h; exact ⟨by omega, Or.inl ⟨‹_›, rfl⟩⟩
    · cases h; exact ⟨by omega, Or.inr ⟨by simp_all, rfl⟩⟩

/-- What a step answers: the build is legal, and it took the next event of the schedule, or ran the
engine with none left (R152, R155). -/
theorem step_next (h : step s = .next t) :
    legalProfile s.cfg.profile = true ∧
      ((s.inputs = [] ∧ s.fault = none ∧ t = engineSlot s) ∨
        (∃ rest, s.inputs = .engine :: rest ∧ s.fault = none ∧
          t = engineSlot (takeEvent rest s)) ∨
        (∃ a rest, s.inputs = .host a :: rest ∧ s.fault = none ∧
          hostStep a (takeEvent rest s) = .next t) ∨
        (∃ rest, s.inputs = .reset :: rest ∧ t = resetBlock (takeEvent rest s))) := by
  unfold step buildStep at h
  split at h
  · refine ⟨‹_›, ?_⟩
    unfold agentStep at h
    split at h
    · obtain ⟨hf, h⟩ := running_next h
      cases h; exact Or.inl ⟨‹_›, hf, rfl⟩
    · obtain ⟨hf, h⟩ := running_next h
      cases h; exact Or.inr (Or.inl ⟨_, ‹_›, hf, rfl⟩)
    · obtain ⟨hf, h⟩ := running_next h
      exact Or.inr (Or.inr (Or.inl ⟨_, _, ‹_›, hf, h⟩))
    · cases h; exact Or.inr (Or.inr (Or.inr ⟨_, ‹_›, rfl⟩))
  · cases h

end Sys2Proof.Machine
end

