-- ==== Sys2Proof/Laws/Inv.lean ====
section
/-! SUPPORT. The invariant's small lemmas: what raising leaves alone, that the invariant depends on the block's
own state only, and that the engine of a state that meets it stands inside its frame. -/

namespace Sys2Proof.Machine

open Sys2Proof

/-! ## Raising writes FAULT only -/

section
variable (f : Raised) (s : State)

@[simp] theorem raise_cfg : (raise f s).cfg = s.cfg := by cases h : s.fault <;> simp [h]
@[simp] theorem raise_holes : (raise f s).holes = s.holes := by cases h : s.fault <;> simp [h]
@[simp] theorem raise_dataMem : (raise f s).dataMem = s.dataMem := by cases h : s.fault <;> simp [h]
@[simp] theorem raise_constMem : (raise f s).constMem = s.constMem := by cases h : s.fault <;> simp [h]
@[simp] theorem raise_initd : (raise f s).initd = s.initd := by cases h : s.fault <;> simp [h]
@[simp] theorem raise_engine : (raise f s).engine = s.engine := by cases h : s.fault <;> simp [h]
@[simp] theorem raise_line : (raise f s).line = s.line := by cases h : s.fault <;> simp [h]
@[simp] theorem raise_xferAddr : (raise f s).xferAddr = s.xferAddr := by cases h : s.fault <;> simp [h]
@[simp] theorem raise_xferCount : (raise f s).xferCount = s.xferCount := by cases h : s.fault <;> simp [h]
@[simp] theorem raise_xferGamma : (raise f s).xferGamma = s.xferGamma := by cases h : s.fault <;> simp [h]
@[simp] theorem raise_seq : (raise f s).seq = s.seq := by cases h : s.fault <;> simp [h]
@[simp] theorem raise_byteIdx : (raise f s).byteIdx = s.byteIdx := by cases h : s.fault <;> simp [h]
@[simp] theorem raise_bitIdx : (raise f s).bitIdx = s.bitIdx := by cases h : s.fault <;> simp [h]
@[simp] theorem raise_cyc : (raise f s).cyc = s.cyc := by cases h : s.fault <;> simp [h]
@[simp] theorem raise_shift : (raise f s).shift = s.shift := by cases h : s.fault <;> simp [h]
@[simp] theorem raise_prefetch : (raise f s).prefetch = s.prefetch := by cases h : s.fault <;> simp [h]
@[simp] theorem raise_wire : (raise f s).wire = s.wire := by cases h : s.fault <;> simp [h]
@[simp] theorem raise_reads : (raise f s).reads = s.reads := by cases h : s.fault <;> simp [h]
@[simp] theorem raise_reply : (raise f s).reply = s.reply := by cases h : s.fault <;> simp [h]
@[simp] theorem raise_inputs : (raise f s).inputs = s.inputs := by cases h : s.fault <;> simp [h]
@[simp] theorem raise_draws : (raise f s).draws = s.draws := by cases h : s.fault <;> simp [h]

end

variable {s t : State}

/-! ## The invariant -/

/-- The invariant does not read FAULT, PREFETCH, the bit position or the model's own fields. -/
theorem State.Inv.congr (hi : s.Inv) (hcfg : t.cfg = s.cfg) (hdata : t.dataMem = s.dataMem)
    (hconst : t.constMem = s.constMem) (hinitd : t.initd = s.initd) (hengine : t.engine = s.engine)
    (hline : t.line = s.line) (haddr : t.xferAddr = s.xferAddr) (hcount : t.xferCount = s.xferCount)
    (hgamma : t.xferGamma = s.xferGamma) (hseq : t.seq = s.seq) (hbyte : t.byteIdx = s.byteIdx)
    (hcyc : t.cyc = s.cyc) (hshift : t.shift = s.shift) (hwire : t.wire = s.wire) : t.Inv := by
  have hf := frameBytes_congr (s := s) (t := t) (by rw [hcfg]) hdata hconst
  constructor
  · rw [hcfg]; exact hi.legal
  · rw [hdata]; exact hi.dataWf
  · rw [hconst]; exact hi.constWf
  · rw [hcfg, hdata]; exact hi.dataInside
  · rw [hcfg, hconst]; exact hi.constInside
  · rw [hcfg, hengine]; exact hi.tierAIdle
  · rw [hcfg, haddr]; exact hi.addrFits
  · rw [hcfg, hcount]; exact hi.countFits
  · rw [hcfg, hgamma]; exact hi.gammaFits
  · rw [hcount, hseq]; exact hi.seqLength
  · rw [hcount, hbyte]; exact hi.byteInside
  · rw [hcfg, hcyc]; exact hi.cycInside
  · rw [hinitd, hengine, hline]; exact hi.idleLow
  · rw [hengine]; intro he
    have ht := hi.transfer he
    constructor
    · rw [hinitd]; exact ht.initialized
    · rw [hcount, hbyte]; exact ht.byteLeft
    · rw [hseq, hbyte, hshift]; exact ht.shiftHolds
    · rw [hcfg, haddr, hcount]; exact ht.bufferInside
    · rw [hcfg, hgamma]; exact ht.tableInside
    · rw [hf, haddr, hcount, hgamma, hseq]; exact ht.bytesHeld
    · rw [hseq, hwire]; exact ht.recorded

/-! ## The engine's place in its frame -/

/-- The timer of a transfer in flight stands at its frame position, inside the frame. -/
theorem State.Inv.timerAt (hi : s.Inv) (he : s.engine = .transferring) :
    TimerAt s.seq (framePosition s) s ∧ framePosition s < frameCycles s.cfg s.xferCount := by
  have ht := hi.transfer he
  have hlt := ht.byteLeft
  have hlen := hi.seqLength
  have hc := hi.cycInside
  have hb : s.bitIdx.val < 8 := s.bitIdx.isLt
  have hT : 0 < s.cfg.profile.tTotal := by omega
  have e1 : framePosition s / s.cfg.profile.tTotal = 8 * s.byteIdx + s.bitIdx.val := by
    unfold framePosition
    rw [Nat.mul_comm, Nat.mul_add_div hT, Nat.div_eq_of_lt hc, Nat.add_zero]
  have e2 : framePosition s % s.cfg.profile.tTotal = s.cyc := by
    unfold framePosition
    rw [Nat.mul_comm, Nat.mul_add_mod, Nat.mod_eq_of_lt hc]
  refine ⟨⟨rfl, e2.symm, ?_, ?_, ?_⟩, ?_⟩
  · rw [e1]; omega
  · rw [e1]; omega
  · rw [e1, show min ((8 * s.byteIdx + s.bitIdx.val) / 8) (s.seq.length - 1) = s.byteIdx by omega]
    exact ht.shiftHolds
  · unfold framePosition frameCycles
    calc (8 * s.byteIdx + s.bitIdx.val) * s.cfg.profile.tTotal + s.cyc
        < (8 * s.byteIdx + s.bitIdx.val) * s.cfg.profile.tTotal + s.cfg.profile.tTotal := by omega
      _ = (8 * s.byteIdx + s.bitIdx.val + 1) * s.cfg.profile.tTotal := by ring
      _ ≤ 8 * s.xferCount * s.cfg.profile.tTotal := Nat.mul_le_mul_right _ (by omega)

/-- A timer at cycle `k` has frame position `k`. -/
theorem TimerAt.framePosition {bytes : List Byte} {k : Nat} (h : TimerAt bytes k s) :
    framePosition s = k := by
  unfold Machine.framePosition
  rw [h.byteIdx, h.bitIdx, h.cyc, Nat.div_add_mod, Nat.mul_comm]
  exact Nat.div_add_mod ..

/-- The last cycle of a frame is low (R104, R111). -/
theorem level_of_last {c : Config} {bytes : List Byte} {k : Nat} (hl : legalProfile c.profile = true)
    (h : k + 1 = frameCycles c bytes.length) : level c bytes k = false := by
  have hT := tTotal_pos hl
  have e : k % c.profile.tTotal = c.profile.tTotal - 1 := by
    by_contra hne
    have hlt := Nat.mod_lt k hT
    have := (succ_div_mod_of_lt (k := k) (T := c.profile.tTotal) (by omega)).2
    rw [h] at this
    unfold frameCycles at this
    rw [Nat.mul_mod_left] at this; omega
  have := thr_lt_tTotal hl (frameBit bytes (k / c.profile.tTotal))
  simp [level, e]; omega

end Sys2Proof.Machine
end

