-- ==== Sys2Proof/Laws/PerInstr.lean ====
section
/-! SUPPORT. Statements made for every command as syntax, one lemma per constructor of `Instr`. -/

namespace Sys2Proof.Laws.CodeIsListed

/-- The command's code is an `op` of the table (R72), and a word packed with it decodes to a command in
the tiers the table gives it and in no other. -/
def Statement (i : Instr) : Prop :=
  0x01 ≤ i.opcode ∧ i.opcode ≤ 0x04 ∧
    ∀ (c : Config) (w : Nat), opField w = i.opcode →
      ((∃ j, decode c w = .command j) ↔ i.legalIn c.tier = true)

theorem wsInit : Statement .wsInit :=
  ⟨by decide, by decide, fun c w h => by simp [decode, h, Instr.opcode, Instr.legalIn]⟩

theorem wsOut (data count : Nat) (gamma : Option Nat) : Statement (.wsOut data count gamma) :=
  ⟨by simp [Instr.opcode], by simp [Instr.opcode], fun c w h => by
    cases ht : c.tier <;> simp [decode, h, Instr.opcode, Instr.legalIn, ht]⟩

theorem wsOuta (data count : Nat) (gamma : Option Nat) : Statement (.wsOuta data count gamma) :=
  ⟨by simp [Instr.opcode], by simp [Instr.opcode], fun c w h => by
    cases ht : c.tier <;> simp [decode, h, Instr.opcode, Instr.legalIn, ht]⟩

theorem wsCheck : Statement .wsCheck :=
  ⟨by simp [Instr.opcode], by simp [Instr.opcode], fun c w h => by
    cases ht : c.tier <;> simp [decode, h, Instr.opcode, Instr.legalIn, ht]⟩

end Sys2Proof.Laws.CodeIsListed
end

