-- ==== Sys2Proof/Tests/Slice0.lean ====
section
/-! SUPPORT. The model's own tests: ill-formed commands refused, the words of the spec decoded, one step of
each command, and one witness for each statement that has hypotheses. Expected values come from
95_test_vectors.md, or from a rule by hand where the test says so. -/

namespace Sys2Proof.Tests

open Sys2Proof Sys2Proof.Machine

/-! ## Small states -/

/-- The smallest legal profile (R101), so that a frame is short. -/
def tiny : TimingProfile := { fOut := 800000, tTotal := 3, tLow := 1, tHigh := 2 }

/-- A build of tier `t` with 16-bit addresses and counts and its tables in `space`. -/
def cfgOf (t : Tier) (space : Space) : Config :=
  { Config.default with tier := t, profile := tiny, gammaSpace := space }

/-- A block after reset and INIT, over the memories given. -/
def ready (t : Tier) (space : Space) (holes : List Region) (data const : Memory) : State :=
  { State.boot (cfgOf t space) holes data const with initd := true }

/-- Tier A with the memory of program P2, as far as the program reads it; every address is readable. -/
def stateA : State :=
  ready .a .const [] [(0x0200, 0x10), (0x0201, 0x80), (0x0202, 0xEE)] [(0x0410, 0xEF), (0x0480, 0x7F)]

/-- Tier B with the memory of the L2-6 vectors; every address is readable. -/
def stateB : State := ready .b .const [] [(0x0300, 0x12), (0x0301, 0x34)] []

/-- Tier B with the transfer of vector L2-6 (a) in flight. -/
def busyB : State := withReply statusAccepted (armTransfer 0x0300 2 none stateB)

/-- `busyB` in the last cycle of its frame: byte 1, bit 7, cycle 2. -/
def lastCycleB : State :=
  { busyB with byteIdx := 1, bitIdx := 7, cyc := 2, shift := 0x34 }

/-- Tier B with a transfer whose table is in `DATA`, at the top of the space. -/
def busyTableB : State := armTransfer 0x0300 2 (some 0xFF00) (ready .b .data [] [(0x0300, 0x12)] [])

/-- A block that has recorded a fault. -/
def faultedB : State := { stateB with fault := some .zeroCount }

/-- A hole of one address. -/
def hole (space : Space) (addr : Nat) : Region := { space := space, base := addr, size := 1 }

/-- `s` with the host's next action. -/
def doing (a : HostAction) (s : State) : State := { s with inputs := [.host a] }

/-- What the outcome's next state meets; false of a stop. -/
def after (o : Host.Outcome State Fault Refusal) (p : State → Bool) : Bool :=
  match o with
  | .next s => p s
  | .fault _ => false
  | .refused _ => false

theorem exists_of_after {o : Host.Outcome State Fault Refusal} {p : State → Bool} (h : after o p = true) :
    ∃ t, o = .next t ∧ p t = true := by
  cases o with
  | next s => exact ⟨s, rfl, h⟩
  | fault r => cases h
  | refused r => cases h

/-- The cells of `n` table entries from entry `lo` up, in a table at 0x0400. -/
def tableCells (f : Nat → Byte) (lo : Nat) : Nat → Memory
  | 0 => []
  | n + 1 => (0x0400 + lo, f lo) :: tableCells f (lo + 1) n

theorem read_tableCells (f : Nat → Byte) {lo n k : Nat} (h1 : lo ≤ k) (h2 : k < lo + n) :
    Memory.read (tableCells f lo n) (0x0400 + k) = f k := by
  induction n generalizing lo with
  | zero => omega
  | succ n ih =>
    unfold tableCells Memory.read
    split
    · rw [show lo = k by omega]
    · exact ih (by omega) (by omega)

/-- The state of vector L1-4 after INIT: an identity table at `CONST[0x0400]` (its entry 0 is a zero byte,
which no cell lists). -/
def stateId : State := ready .a .const [] [] (tableCells (BitVec.ofNat 8) 1 255)

/-- The same with the constant table of vector L1-5. -/
def stateK : State := ready .a .const [] [] (tableCells (fun _ => 0xFF) 0 256)

/-! ## WellFormed: one ill-formed command for each check -/

theorem test_wf_refuses_out_in_tier_b : (Instr.wsOut 0 1 none).wf (cfgOf .b .const) = false := by decide
theorem test_wf_refuses_outa_in_tier_a : (Instr.wsOuta 0 1 none).wf (cfgOf .a .const) = false := by decide
theorem test_wf_refuses_check_in_tier_a : Instr.wsCheck.wf (cfgOf .a .const) = false := by decide
theorem test_wf_refuses_wide_data : (Instr.wsOut 0x10000 1 none).wf (cfgOf .a .const) = false := by decide
theorem test_wf_refuses_wide_count : (Instr.wsOuta 0 0x10000 none).wf (cfgOf .b .const) = false := by decide
theorem test_wf_refuses_wide_gamma :
    (Instr.wsOut 0 1 (some 0x10000)).wf (cfgOf .a .const) = false := by decide
theorem test_wf_accepts_the_widest :
    (Instr.wsOut 0xFFFF 0xFFFF (some 0xFFFF)).wf (cfgOf .a .const) = true := by decide

/-! ## Decoding: words of 95_test_vectors.md -/

/-- L2-4: INIT with every other bit 1. -/
theorem test_decode_init : decode (cfgOf .a .const) 0x1FFFFFFFFFFFF01 = .command .wsInit := by decide
/-- L2-8: op 0x02, gp 1, data 0x0200, count 2, gamma 0x0400. -/
theorem test_decode_out :
    decode (cfgOf .a .const) 0x008000004040102 = .command (.wsOut 0x0200 2 (some 0x0400)) := by decide
/-- L2-6 b. -/
theorem test_decode_outa :
    decode (cfgOf .b .const) 0x000000002062003 = .command (.wsOuta 0x0310 1 none) := by decide
/-- L2-8. -/
theorem test_decode_check : decode (cfgOf .b .const) 0x000000000000004 = .command .wsCheck := by decide
/-- L2-8: the other tier's codes and the reserved codes. -/
theorem test_decode_illegal :
    decode (cfgOf .a .const) 0x000000004060003 = .illegal 0x03 ∧
    decode (cfgOf .a .const) 0x000000000000004 = .illegal 0x04 ∧
    decode (cfgOf .b .const) 0x000000006020002 = .illegal 0x02 ∧
    decode (cfgOf .a .const) 0 = .illegal 0x00 ∧ decode (cfgOf .b .const) 0x05 = .illegal 0x05 ∧
    decode (cfgOf .b .const) 0xFF = .illegal 0xFF := by decide
/-- L2-5 i, L2-5 c and L2-8: the words of three lines. -/
theorem test_encode :
    encode (cfgOf .a .const) (.wsOut 0xFFFF 1 (some 0)) = 0x000000003FFFF02 ∧
    encode (cfgOf .a .const) (.wsOut 0x0100 0 none) = 0x000000000020002 ∧
    encode (cfgOf .b .const) .wsCheck = 0x000000000000004 := by decide
/-- The opcode table's match values, zeros above, decode to their rows' commands. -/
theorem test_decodeTableWord :
    decodeTableWord 8 1 = some .wsInit ∧ decodeTableWord 8 2 = some (.wsOut 0 0 none) ∧
    decodeTableWord 8 3 = some (.wsOuta 0 0 none) ∧ decodeTableWord 8 4 = some .wsCheck ∧
    decodeTableWord 8 5 = none := by decide
/-- The placed command is the very next step's: INIT initializes, CHECK_STATUS faults before INIT. -/
theorem test_withFetchWord :
    after (step (State.reset.withFetchWord 8 1)) (fun t => t.initd && decide (t.fault = none)) = true ∧
    after (step (State.reset.withFetchWord 8 4)) (fun t => decide (t.fault = some .notInitialized)) = true := by
  decide

/-! ## Commands -/

/-- L2-4: INIT from reset with the line unknown (here high). -/
theorem test_init :
    after (exec .wsInit { State.reset with line := true })
      (fun t => t.initd && !t.line && decide (t.wire = [])) = true := by decide
/-- L2-4: INIT while transferring. -/
theorem test_init_while_busy :
    after (exec .wsInit busyB) (fun t => decide (t = { busyB with fault := some .initWhileBusy })) = true := by
  decide

set_option maxRecDepth 20000 in
/-- P2: the frame, the sentinel in PREFETCH only, the reads in order. -/
theorem test_out_with_gamma :
    after (exec (.wsOut 0x0200 2 (some 0x0400)) stateA) (fun t =>
      decide (t.wire = [.gap, .frame [0xEF, 0x7F]]) && decide (t.prefetch = 0xEE) && !t.line &&
      decide (t.reads = [⟨.data, 0x0200⟩, ⟨.const, 0x0410⟩, ⟨.data, 0x0201⟩, ⟨.const, 0x0480⟩,
        ⟨.data, 0x0202⟩])) = true := by decide
/-- L2-5 i: the trailing byte is outside the space. -/
theorem test_out_trailing_byte_outside :
    after (exec (.wsOut 0xFFFF 1 (some 0x0000)) stateA)
      (fun t => decide (t = { stateA with fault := some (.unreadable .data 0x10000) })) = true := by decide

/-- L2-6 f: no trailing byte in Tier B, so no fault. -/
theorem test_outa_at_the_top :
    after (exec (.wsOuta 0xFFFF 1 none) stateB) (fun t => decide (t.reply = some 0x00) &&
      decide (t.engine = .transferring) && decide (t.wire = [.gap, .frame [0x00]])) = true := by decide
/-- L2-6 d: ZeroCount comes before the Busy result. -/
theorem test_outa_zero_count :
    after (exec (.wsOuta 0x0300 0 none) busyB) (fun t => decide (t.fault = some .zeroCount)) = true := by decide

/-- L1-6 step 2. -/
theorem test_check_busy :
    after (exec .wsCheck busyB) (fun t => decide (t.reply = some 0x01)) = true := by decide
/-- L2-7: before INIT. -/
theorem test_check_before_init :
    after (exec .wsCheck { stateB with initd := false })
      (fun t => decide (t.fault = some .notInitialized)) = true := by decide

/-! ## The timer, the waveform, the host, the assembler -/

/-- L2-2: the register trace of `Frame([0x80])` at the smallest profile, steps 3, 5 and 24. -/
theorem test_timer_trace :
    let s := startFrame [0x80] stateA
    let t3 := repeatCycle timerCycle 3 s
    let t5 := repeatCycle timerCycle 5 s
    let t24 := repeatCycle timerCycle 24 s
    (t3.line, t3.cyc, t3.bitIdx, t3.byteIdx) = (false, 0, 1, 0) ∧
    (t5.line, t5.cyc, t5.bitIdx, t5.byteIdx) = (false, 2, 1, 0) ∧
    (t24.line, t24.cyc, t24.bitIdx, t24.byteIdx) = (false, 0, 0, 1) := by decide
/-- L2-2: levels of `Frame([0xA5])` with the defaults. -/
theorem test_levels :
    [0, 31, 32, 43, 44, 55, 56, 87, 88, 119, 120, 351].map (level Config.default [0xA5]) =
      [true, true, false, false, true, true, false, false, true, true, false, false] := by decide
/-- L1-3: pulses, and what they decode to. -/
theorem test_pulses :
    pulses Config.default [0xA5] = [32, 12, 32, 12, 12, 32, 12, 32] ∧
    decodePulses Config.default [32, 12, 32, 12, 12, 32, 12, 32] = some [0xA5] := by decide
/-- L2-1: the table's profiles. -/
theorem test_legal_profiles :
    [(44, 12, 32), (3, 1, 2), (44, 0, 32), (44, 12, 12), (44, 12, 44), (44, 32, 12), (2, 1, 1)].map
      (fun p => legalProfile { fOut := 0, tTotal := p.1, tLow := p.2.1, tHigh := p.2.2 }) =
      [true, true, false, false, false, false, false] := by decide
/-- R171: the code numbers. -/
theorem test_fault_codes :
    [none, some (.illegalCommand 0), some .notInitialized, some .initWhileBusy, some .zeroCount,
      some (.unreadable .data 0), some (.writeInFlight .data 0)].map faultCode = [0, 1, 2, 3, 4, 5, 6] := by
  decide
/-- R24: the encoding of STATE. -/
theorem test_engine_codes : engineCode .idle = 0 ∧ engineCode .transferring = 1 := by decide
/-- L2-6 h, i and j: a write into the buffer, one past it, and a read of it. -/
theorem test_host_during_transfer :
    after (step (doing (.write .data 0x0301 0x00) busyB)) (fun t =>
      decide (t.fault = some (.writeInFlight .data 0x0301)) && decide (t.readByte .data 0x0301 = 0x34)) = true ∧
    after (step (doing (.write .data 0x0302 0x99) busyB)) (fun t =>
      decide (t.fault = none) && decide (t.readByte .data 0x0302 = 0x99)) = true ∧
    after (step (doing (.read .data 0x0300) busyB)) (fun t => decide (t.reply = some 0x12)) = true := by decide
/-- L2-6 k: a host write in state Idle. -/
theorem test_host_write_when_idle :
    after (step (doing (.write .data 0x0300 0x55) stateB)) (fun t =>
      decide (t.fault = none) && decide (t.readByte .data 0x0300 = 0x55) && decide (t.wire = [])) = true := by
  decide
/-- L2-6 l: the table is borrowed too, up to its last entry. -/
theorem test_host_write_to_table :
    after (step (doing (.write .data 0xFFFF 0) busyTableB)) (fun t =>
      decide (t.fault = some (.writeInFlight .data 0xFFFF))) = true := by decide
/-- The host's stops: a write to CONST (R51), an address outside the space (R50), a faulted block (R170). -/
theorem test_host_stops :
    step (doing (.write .const 0x0400 0) stateB) = .refused (.constWrite 0x0400) ∧
    step (doing (.read .data 0x10000) stateB) = .fault (.noSuchAddress .data 0x10000) ∧
    step faultedB = .fault (.halted .zeroCount) := ⟨rfl, rfl, rfl⟩
/-- R80, R81: lines of 95_test_vectors.md, with a comment and with the gamma operand left out. -/
theorem test_parse :
    (parseLine ("ws.out 0x0200, 2, 0x0400 ; P2".toList)).map AsmLine.command =
      some (.wsOut 0x0200 2 (some 0x0400)) ∧
    (parseLine ("ws.outa s, 0x0300, 2".toList)).map AsmLine.command = some (.wsOuta 0x0300 2 none) ∧
    (parseLine ("ws.check s".toList)).map AsmLine.command = some .wsCheck ∧
    parseLine ("ws.wait s".toList) = none := by decide

/-! ## Witnesses: states and operands that meet the hypotheses of each statement -/

/-- In a memory without holes every address of the space is readable (R54). -/
theorem readable_open {s : State} (h : s.holes = []) {space : Space} {a : Nat} (ha : a < spaceSize s.cfg) :
    s.readable space a = true := by
  simp [State.readable, h, ha]

/-- There, the regions of an output command are readable if they are inside their spaces (R59). -/
theorem reach_a {s : State} {data count : Nat} {gamma : Option Nat} (h : s.holes = [])
    (hd : data + tierASpan count gamma ≤ spaceSize s.cfg)
    (hg : gamma.getD 0 + gammaEntries ≤ spaceSize s.cfg) :
    s.bufferReadable data count gamma ∧ s.tableReadable gamma := by
  refine ⟨⟨fun i hi => readable_open h ?_, fun _ hn => readable_open h ?_⟩, ?_⟩
  · cases gamma <;> simp only [tierASpan] at hd <;> omega
  · cases gamma with
    | none => exact absurd rfl hn
    | some base => simp only [tierASpan] at hd; omega
  · rintro base rfl v hv
    simp only [Option.getD_some] at hg
    exact readable_open h (by omega)

/-- The same in Tier B, which reads no trailing byte. -/
theorem reach_b {s : State} {data count : Nat} {gamma : Option Nat} (h : s.holes = [])
    (ht : s.cfg.tier = .b) (hd : data + count ≤ spaceSize s.cfg)
    (hg : gamma.getD 0 + gammaEntries ≤ spaceSize s.cfg) :
    s.bufferReadable data count gamma ∧ s.tableReadable gamma := by
  refine ⟨⟨fun i hi => readable_open h (by omega), fun ha => ?_⟩, ?_⟩
  · rw [ht] at ha; cases ha
  · rintro base rfl v hv
    simp only [Option.getD_some] at hg
    exact readable_open h (by omega)

/-- INIT: op 0x01 with every other bit 1; busy and idle states of Tier B; Tier A. -/
theorem witness_InitFollowsItsRule :
    opField 0x1FFFFFFFFFFFF01 = 0x01 ∧
    (busyB.fault = none ∧ busyB.cfg.tier = .b ∧ busyB.engine = .transferring) ∧
    (stateB.fault = none ∧ ¬ (stateB.cfg.tier = .b ∧ stateB.engine = .transferring)) ∧
    (stateA.fault = none ∧ ¬ (stateA.cfg.tier = .b ∧ stateA.engine = .transferring)) := by decide

theorem witness_InitIsIdempotent :
    State.reset.fault = none ∧ ¬ (State.reset.cfg.tier = .b ∧ State.reset.engine = .transferring) := by decide

/-- With a table at the top of its space and the trailing byte at the top of `DATA`; and without one, the
buffer's last byte at the top. -/
theorem witness_OutputSyncEmitsOneFrame :
    (stateA.fault = none ∧ legalProfile stateA.cfg.profile = true ∧ stateA.cfg.tier = .a ∧
      stateA.initd = true ∧ 1 ≠ 0) ∧
    (stateA.bufferReadable 0xFFFE 1 (some 0xFF00) ∧ stateA.tableReadable (some 0xFF00)) ∧
    (stateA.bufferReadable 0xFFFF 1 none ∧ stateA.tableReadable none) :=
  ⟨by decide, reach_a rfl (by decide) (by decide), reach_a rfl (by decide) (by decide)⟩

theorem witness_OutputAsyncArmsTransfer :
    (stateB.fault = none ∧ stateB.cfg.tier = .b ∧ stateB.initd = true ∧ stateB.engine = .idle ∧ 1 ≠ 0) ∧
    (stateB.bufferReadable 0xFFFF 1 (some 0xFF00) ∧ stateB.tableReadable (some 0xFF00)) ∧
    (stateB.bufferReadable 0xFFFF 1 none ∧ stateB.tableReadable none) :=
  ⟨by decide, reach_b rfl rfl (by decide) (by decide), reach_b rfl rfl (by decide) (by decide)⟩

theorem witness_BusyOutputChangesNothing :
    busyB.fault = none ∧ busyB.cfg.tier = .b ∧ busyB.initd = true ∧ 1 ≠ 0 ∧
      busyB.engine = .transferring := by decide

theorem witness_CheckStatusReportsEngine :
    (stateB.fault = none ∧ stateB.cfg.tier = .b ∧ stateB.initd = true ∧ stateB.engine = .idle) ∧
    (busyB.fault = none ∧ busyB.cfg.tier = .b ∧ busyB.initd = true ∧ busyB.engine = .transferring) := by
  decide

theorem witness_FrameBytesAreGammaOfBuffer : (0 < 1) ∧ (2 < 3) := by decide

set_option maxRecDepth 20000 in
theorem witness_GammaIdentityAndConstantTables :
    (∀ v : Byte, stateId.readByte stateId.cfg.gammaSpace (0x0400 + v.toNat) = v) ∧
    (∀ v : Byte, stateK.readByte stateK.cfg.gammaSpace (0x0400 + v.toNat) = 0xFF) := by
  refine ⟨fun v => ?_, fun v => read_tableCells (fun _ => 0xFF) (Nat.zero_le _) (by omega)⟩
  by_cases h : v = 0
  · subst h; rfl
  · have hn : 0 < v.toNat := by
      rw [Nat.pos_iff_ne_zero]; intro e; exact h (BitVec.eq_of_toNat_eq e)
    exact (read_tableCells (BitVec.ofNat 8) hn (by omega)).trans (by simp)

/-- A table in `CONST`; a table in `DATA` right above the trailing byte; one that ends right below it. -/
theorem witness_TrailingByteIsNeverTransmitted :
    (stateA.fault = none ∧ legalProfile stateA.cfg.profile = true ∧ stateA.cfg.tier = .a ∧
      stateA.initd = true ∧ 1 ≠ 0 ∧ Memory.wf stateA.dataMem = true ∧ stateA.cfg.gammaSpace = .const) ∧
    (stateA.bufferReadable 0xFFFE 1 (some 0xFF00) ∧ stateA.tableReadable (some 0xFF00)) ∧
    (let s := ready .a .data [] [] []
     (s.fault = none ∧ legalProfile s.cfg.profile = true ∧ s.cfg.tier = .a ∧ s.initd = true ∧
       Memory.wf s.dataMem = true ∧ s.cfg.gammaSpace = .data) ∧
     (s.bufferReadable 0 1 (some 2) ∧ s.tableReadable (some 2)) ∧ 0 + 1 < 2 ∧
     (s.bufferReadable 255 1 (some 0) ∧ s.tableReadable (some 0)) ∧ 0 + gammaEntries ≤ 255 + 1) :=
  ⟨by decide, reach_a rfl (by decide) (by decide), by decide, reach_a rfl (by decide) (by decide), by decide,
    reach_a rfl (by decide) (by decide), by decide⟩

theorem witness_PrefetchRunsOneByteAhead :
    legalProfile stateA.cfg.profile = true ∧ 0 < frameCycles stateA.cfg 2 ∧
      47 < frameCycles stateA.cfg 2 := by decide

/-- The readability premises are those of the two output witnesses above. -/
theorem witness_OutputsReadExactlyTheirBytes :
    (stateA.fault = none ∧ legalProfile stateA.cfg.profile = true ∧ stateA.initd = true ∧
      stateA.cfg.tier = .a ∧ some 0xFF00 ≠ none) ∧
    (stateB.fault = none ∧ legalProfile stateB.cfg.profile = true ∧ stateB.initd = true ∧
      stateB.cfg.tier = .b ∧ stateB.engine = .idle) ∧
    (busyB.fault = none ∧ busyB.initd = true ∧ busyB.cfg.tier = .b ∧ busyB.engine = .transferring) := by
  decide

set_option maxRecDepth 20000 in
/-- A step of each command that answers a next state without a fault; the status commands in both engine
states. -/
theorem witness_StatusResultsAreZeroOrOne :
    (∃ t, step (doing (.command 0x01) stateB) = .next t ∧ decide (t.fault = none) = true) ∧
    (∃ t, step (doing (.command 0x02000002) stateA) = .next t ∧ decide (t.fault = none) = true) ∧
    (∃ t, step (doing (.command 0x02000003) stateB) = .next t ∧ decide (t.fault = none) = true) ∧
    (∃ t, step (doing (.command 0x02000003) busyB) = .next t ∧ decide (t.fault = none) = true) ∧
    (∃ t, step (doing (.command 0x04) stateB) = .next t ∧ decide (t.fault = none) = true) ∧
    (∃ t, step (doing (.command 0x04) busyB) = .next t ∧ decide (t.fault = none) = true) ∧
    (decode stateB.cfg 0x01 = .command .wsInit ∧ decode stateA.cfg 0x02000002 = .command (.wsOut 0 1 none) ∧
      decode stateB.cfg 0x02000003 = .command (.wsOuta 0 1 none) ∧
      decode stateB.cfg 0x04 = .command .wsCheck) :=
  ⟨exists_of_after (by decide), exists_of_after (by decide), exists_of_after (by decide),
    exists_of_after (by decide), exists_of_after (by decide), exists_of_after (by decide), by decide⟩

set_option maxRecDepth 20000 in
theorem witness_CommandFrames :
    (∃ t, exec .wsInit stateA = .next t ∧ decide (t.fault = none) = true) ∧
    (∃ t, exec (.wsOut 0x0200 1 none) stateA = .next t ∧ decide (t.fault = none) = true) ∧
    (∃ t, exec (.wsOuta 0x0300 1 none) stateB = .next t ∧ decide (t.fault = none) = true) ∧
    (∃ t, exec .wsCheck stateB = .next t ∧ decide (t.fault = none) = true) :=
  ⟨exists_of_after (by decide), exists_of_after (by decide), exists_of_after (by decide),
    exists_of_after (by decide)⟩

/-- A block whose buffer byte and whose table byte at one address are unreadable. -/
def holedA : State := ready .a .const [hole .data 0x0102, hole .const 0x04FF] [] []

/-- The same in Tier B. -/
def holedB : State := ready .b .const [hole .data 0x0102, hole .const 0x04FF] [] []

/-- Clauses 1 to 5 and 9: an illegal word; not initialized, in both tiers; INIT while transferring; a zero
count; Busy; a write at the first borrowed byte and at the first byte past the buffer. -/
theorem witness_FaultPriorityOrder_checks :
    (stateB.fault = none ∧ decode stateB.cfg 0x02 = .illegal 0x02) ∧
    (State.reset.fault = none ∧ State.reset.initd = false ∧ State.reset.cfg.tier = .a) ∧
    (let s := { stateB with initd := false }
     s.fault = none ∧ s.initd = false ∧ s.cfg.tier = .b) ∧
    (busyB.fault = none ∧ busyB.initd = true ∧ busyB.cfg.tier = .b ∧ busyB.engine = .transferring) ∧
    (stateA.fault = none ∧ stateA.initd = true ∧ stateA.cfg.tier = .a) ∧
    (0x0300 < spaceSize busyB.cfg ∧ busyB.borrowed .data 0x0300 = true ∧
      0x0302 < spaceSize busyB.cfg ∧ busyB.borrowed .data 0x0302 = false) := by decide

set_option maxRecDepth 20000 in
/-- Clauses 6 to 8: Tier A's last buffer byte and its trailing byte unreadable; Tier B's last buffer byte; the
table's last entry, with the buffer readable. -/
theorem witness_FaultPriorityOrder_unreadable :
    (holedA.fault = none ∧ holedA.initd = true ∧ holedA.cfg.tier = .a ∧
      (∀ i, i < 2 → holedA.readable .data (0x0100 + i) = true) ∧
      holedA.readable .data (0x0100 + 2) = false) ∧
    (holedB.fault = none ∧ holedB.initd = true ∧ holedB.cfg.tier = .b ∧ holedB.engine = .idle ∧
      (∀ i, i < 2 → holedB.readable .data (0x0100 + i) = true) ∧
      holedB.readable .data (0x0100 + 2) = false) ∧
    (∀ v, v < 255 → holedA.readable holedA.cfg.gammaSpace (0x0400 + v) = true) ∧
    (∀ v, v < 255 → holedB.readable holedB.cfg.gammaSpace (0x0400 + v) = true) ∧
    (holedA.readable holedA.cfg.gammaSpace (0x0400 + 255) = false ∧
      holedB.readable holedB.cfg.gammaSpace (0x0400 + 255) = false) ∧
    ((∀ i, i < 1 → holedA.readable .data (0x0100 + i) = true) ∧
      holedA.readable .data (0x0100 + 1) = true) := by
  refine ⟨by decide, by decide, ?_, ?_, by decide, by decide⟩
  · exact firstUnreadable_eq_none.1 (by decide)
  · exact firstUnreadable_eq_none.1 (by decide)

theorem witness_RaiseRecordsAndStops :
    (stateB.fault = none ∧ faultedB.fault = some .zeroCount ∧ legalProfile faultedB.cfg.profile = true ∧
      faultedB.inputs = []) ∧
    (∃ t, step (doing (.command 0x05) stateB) = .next t ∧ decide (t.fault ≠ none) = true) ∧
    (let s := { faultedB with inputs := [.reset] }
     s.fault = some .zeroCount ∧ legalProfile s.cfg.profile = true ∧ s.inputs = .reset :: []) :=
  ⟨by decide, exists_of_after (by decide), by decide⟩

theorem witness_FaultingCommandsWriteOnlyFault :
    ∃ t, exec (.wsOut 0 0 none) stateA = .next t ∧ decide (t.fault = some .zeroCount) = true :=
  exists_of_after (by decide)

theorem witness_NoCommandLeavesFault : faultedB.fault = some .zeroCount := rfl

/-- Buffers and tables that run one byte past the end of the space. -/
theorem witness_NoAddressWraps :
    (∀ s : State, (s = stateA ∨ s = stateB) → s.fault = none ∧ s.initd = true ∧ 0xFFFF ≤ spaceSize s.cfg ∧
      ∀ space a, a < spaceSize s.cfg → s.readable space a = true) ∧
    (stateA.cfg.tier = .a ∧ spaceSize stateA.cfg < 0xFFFF + 2 ∧ spaceSize stateA.cfg < 0xFFFF + 1 + 1 ∧
      0xFFFF ≤ spaceSize stateA.cfg) ∧
    (stateB.cfg.tier = .b ∧ stateB.engine = .idle ∧ spaceSize stateB.cfg < 0xFFFF + 2) ∧
    (0xFF01 ≤ spaceSize stateA.cfg ∧ spaceSize stateA.cfg < 0xFF01 + gammaEntries ∧
      0xFFFE + 1 < spaceSize stateA.cfg) ∧
    (0xFF01 ≤ spaceSize stateB.cfg ∧ spaceSize stateB.cfg < 0xFF01 + gammaEntries ∧
      0xFFFF + 1 ≤ spaceSize stateB.cfg) := by
  refine ⟨?_, by decide, by decide, by decide, by decide⟩
  rintro s (rfl | rfl) <;>
    exact ⟨by decide, by decide, by decide, fun space a h => readable_open rfl h⟩

theorem witness_CommandCodeTable :
    (opField 0x01 = 0x01 ∧ opField 0x02 = 0x02 ∧ opField 0x03 = 0x03 ∧ opField 0x04 = 0x04) ∧
    ((cfgOf .a .const).tier = .a ∧ (cfgOf .b .const).tier = .b) ∧
    (opField 0x00 = 0x00 ∧ 0x05 ≤ opField 0x05 ∧ 0x05 ≤ opField 0xFF) ∧
    (stateB.cfg = cfgOf .b .const ∧ stateB.fault = none) := by decide

theorem witness_DecodeOfEncodeIsTheCommand :
    (Instr.wsOut 0xFFFF 0xFFFF (some 0xFFFF)).wf (cfgOf .a .const) = true ∧
    (Instr.wsOuta 0 0 none).wf (cfgOf .b .const) = true ∧
    Instr.wsInit.wf (cfgOf .a .const) = true ∧ Instr.wsCheck.wf (cfgOf .b .const) = true := by decide

theorem witness_EncodeOfDecodeIsTheWord :
    (0x008000004040102 < 2 ^ (cfgOf .a .const).wordBits ∧
      decode (cfgOf .a .const) 0x008000004040102 = .command (.wsOut 0x0200 2 (some 0x0400)) ∧
      gpField 0x008000004040102 = 1) ∧
    (0x1FFFFFFFFFFFE03 < 2 ^ (cfgOf .b .const).wordBits ∧
      decode (cfgOf .b .const) 0x1FFFFFFFFFFFE03 = .command (.wsOuta 0xFFFF 0xFFFF none) ∧
      gpField 0x1FFFFFFFFFFFE03 = 0) := by decide

theorem witness_DecoderIsTotalOnOpAndTier :
    opField 0x02 = opField 0x008000004040102 ∧ (cfgOf .a .const).tier = Config.default.tier := by decide

theorem witness_OperandFreeCommandsIgnoreFields :
    (opField 0x01 = opField 0x1FFFFFFFFFFFF01 ∧ opField 0x01 = 0x01) ∧
    (opField 0x04 = opField 0x1FFFFFFFFFFFF04 ∧ opField 0x04 = 0x04) := by decide

theorem witness_AbsentGammaIgnoresItsField :
    (0x1FFFE0002020002 % 2 ^ (9 + 16 + 16) = 0x000000002020002 % 2 ^ (9 + 16 + 16) ∧
      gpField 0x1FFFE0002020002 = 0) ∧ gpField 0x008000004040102 = 1 := by decide

theorem witness_PseudoInstructionsExpand :
    (∀ data count, AsmLine.init ≠ .out data count none) ∧
    (∀ dest data count, AsmLine.init ≠ .outa dest data count none) := by
  constructor <;> intros <;> simp

theorem witness_AssembledLinesDecode :
    assemble (cfgOf .a .const) (.out 0x0200 2 (some (.table 0x0400))) = some 0x008000004040102 ∧
    (AsmLine.out 0x0200 2 (some (.table 0x0400))).command.legalIn (cfgOf .a .const).tier = true := by decide

theorem witness_StepRunsTheNextEvent :
    (legalProfile stateB.cfg.profile = true ∧ stateB.fault = none ∧ stateB.inputs = []) ∧
    (decode (doing (.command 0x04) stateB).cfg 0x04 = .command .wsCheck ∧
      decode (doing (.command 0x05) stateB).cfg 0x05 = .illegal 0x05) ∧
    ({ busyB with inputs := [.engine] } : State).fault = none ∧
    ((doing (.write .data 0xFFFF 0x55) stateB).inputs = .host (.write .data 0xFFFF 0x55) :: [] ∧
      (doing (.read .const 0xFFFF) stateB).inputs = .host (.read .const 0xFFFF) :: []) ∧
    decode (State.reset.cfg.selectFor (0x04 % 2 ^ 8)) (0x04 % 2 ^ 8) = .command .wsCheck := by decide

/-- The invariant holds with a Tier B transfer in flight, in its first cycle. -/
theorem inv_busyB : busyB.Inv where
  legal := by decide
  dataWf := by decide
  constWf := by decide
  dataInside := by decide
  constInside := by decide
  tierAIdle := by decide
  addrFits := by decide
  countFits := by decide
  gammaFits := by rintro base h; cases h
  seqLength := by decide
  byteInside := by decide
  cycInside := by decide
  idleLow := by decide
  transfer := fun _ => {
    initialized := by decide
    byteLeft := by decide
    shiftHolds := by decide
    bufferInside := by decide
    tableInside := by rintro base h; cases h
    bytesHeld := by decide
    recorded := by decide }

/-- And in its last cycle. -/
theorem inv_lastCycleB : lastCycleB.Inv where
  legal := by decide
  dataWf := by decide
  constWf := by decide
  dataInside := by decide
  constInside := by decide
  tierAIdle := by decide
  addrFits := by decide
  countFits := by decide
  gammaFits := by rintro base h; cases h
  seqLength := by decide
  byteInside := by decide
  cycInside := by decide
  idleLow := by decide
  transfer := fun _ => {
    initialized := by decide
    byteLeft := by decide
    shiftHolds := by decide
    bufferInside := by decide
    tableInside := by rintro base h; cases h
    bytesHeld := by decide
    recorded := by decide }

theorem witness_StepKeepsTheInvariant :
    (busyB.Inv ∧ ∃ t, step busyB = .next t ∧ decide (t.engine = .transferring) = true) ∧
    (lastCycleB.Inv ∧ ∃ t, step lastCycleB = .next t ∧ decide (t.engine = .idle) = true) :=
  ⟨⟨inv_busyB, exists_of_after (by decide)⟩, inv_lastCycleB, exists_of_after (by decide)⟩

theorem witness_ResetMeetsTheInvariant :
    legalProfile stateA.cfg.profile = true ∧ Memory.wf stateA.dataMem = true ∧
    Memory.wf stateA.constMem = true ∧ Memory.within (spaceSize stateA.cfg) stateA.dataMem = true ∧
    Memory.within (spaceSize stateA.cfg) stateA.constMem = true := by decide

theorem witness_ResetSetsTheSpecifiedValues :
    let s := { faultedB with inputs := [.reset] }
    legalProfile s.cfg.profile = true ∧ s.inputs = .reset :: [] := by decide

theorem witness_ConfigurationIsConstant :
    ∃ t, step { busyB with inputs := [.reset] } = .next t ∧ (fun _ => true) t = true :=
  exists_of_after (by rfl)

/-- A host write to the top of `DATA`. -/
theorem witness_OnlyHostWritesChangeMemory :
    Memory.wf stateB.dataMem = true ∧
    ∃ t, step (doing (.write .data 0xFFFF 0x55) stateB) = .next t ∧
      decide (t.readByte .data 0xFFFF = 0x55) = true :=
  ⟨by decide, exists_of_after (by decide)⟩

theorem witness_WireTraceOnlyGrows :
    (∀ rest, (doing (.command 0x02000003) stateB).inputs ≠ .reset :: rest) ∧
    ∃ t, step (doing (.command 0x02000003) stateB) = .next t ∧
      decide (t.wire = [.gap, .frame [0x00]]) = true :=
  ⟨by simp [doing], exists_of_after (by decide)⟩

theorem witness_OnlyInitAndResetWriteInitd :
    (∃ t, step (doing (.command 0x01) State.reset) = .next t ∧
      decide (t.initd ≠ (doing (.command 0x01) State.reset).initd) = true) ∧
    (∃ t, step { stateB with inputs := [.reset] } = .next t ∧ decide (t.initd ≠ stateB.initd) = true) :=
  ⟨exists_of_after (by decide), exists_of_after (by rfl)⟩

theorem witness_RestingMachineWaits :
    legalProfile stateB.cfg.profile = true ∧ stateB.fault = none ∧ stateB.inputs = [] ∧
      stateB.engine = .idle := by decide

theorem witness_EngineStepReadsNoMemory :
    (busyB.cfg.tier = .b ∧ busyB.engine = .transferring ∧ busyB.byteIdx < busyB.xferCount ∧
      busyB.fault = none) ∧
    ¬ (stateB.cfg.tier = .b ∧ stateB.engine = .transferring ∧ stateB.byteIdx < stateB.xferCount ∧
      stateB.fault = none) := by decide

theorem witness_TimerEmitsTheWaveform :
    legalProfile stateA.cfg.profile = true ∧ 0 < frameCycles stateA.cfg [0x80].length ∧
      23 < frameCycles stateA.cfg [0x80].length := by decide

/-- In the first and in the last cycle of a frame. -/
theorem witness_EngineStepFollowsTheWaveform :
    (busyB.Inv ∧ busyB.engineEnabled = true ∧ busyB.inputs = [] ∧
      ∃ t, step busyB = .next t ∧ t.line = true) ∧
    (lastCycleB.Inv ∧ lastCycleB.engineEnabled = true ∧ lastCycleB.inputs = [] ∧
      ∃ t, step lastCycleB = .next t ∧ decide (t.line = false) = true) :=
  ⟨⟨inv_busyB, by decide, rfl, exists_of_after (p := fun t => t.line) (by decide)⟩,
    inv_lastCycleB, by decide, rfl, exists_of_after (by decide)⟩

theorem witness_BothTiersEmitTheSameWaveform :
    legalProfile stateB.cfg.profile = true ∧ 47 < frameCycles stateB.cfg 2 ∧ stateB.cfg.tier = .b ∧
      stateB.fault = none := by decide

theorem witness_FrameLengthAndPulses :
    legalProfile Config.default.profile = true ∧ 7 < 8 * [0xA5].length ∧
      43 < Config.default.profile.tTotal ∧ legalProfile stateA.cfg.profile = true ∧
      ([0xA5] : List Byte) ≠ [] := by decide

theorem witness_PulsesDecodeToTheBytes : legalProfile Config.default.profile = true := by decide

theorem witness_HighTimesLeaveALowTime : legalProfile (cfgOf .a .const).profile = true := by decide

/-- The first and the last cycle of a frame; an idle engine; a step that arms a transfer. -/
theorem witness_TransferCompletesInItsLastCycle :
    (lastCycleB.Inv ∧ lastCycleB.engineEnabled = true ∧
      framePosition lastCycleB + 1 = frameCycles lastCycleB.cfg lastCycleB.xferCount) ∧
    (busyB.Inv ∧ busyB.engineEnabled = true ∧
      framePosition busyB + 1 ≠ frameCycles busyB.cfg busyB.xferCount) ∧
    (stateB.engine = .idle ∧ ∃ t, step (doing (.command 0x02000003) stateB) = .next t ∧
      decide (t.engine = .transferring) = true) :=
  ⟨⟨inv_lastCycleB, by decide, by decide⟩, ⟨inv_busyB, by decide, by decide⟩, rfl,
    exists_of_after (by decide)⟩

/-- Rows of the table in the order of the statement; the readability premises are those of
`witness_OutputAsyncArmsTransfer`. -/
theorem witness_EngineStateTransitions :
    (stateB.fault = none ∧ stateB.cfg.tier = .b ∧ stateB.initd = true ∧ stateB.engine = .idle) ∧
    (busyB.fault = none ∧ busyB.cfg.tier = .b ∧ busyB.initd = true ∧ busyB.engine = .transferring) ∧
    (lastCycleB.Inv ∧ lastCycleB.engineEnabled = true ∧
      framePosition lastCycleB + 1 = frameCycles lastCycleB.cfg lastCycleB.xferCount) ∧
    (∃ t, step lastCycleB = .next t ∧ decide (t.engine ≠ lastCycleB.engine) = true) ∧
    (∀ rest, lastCycleB.inputs ≠ .reset :: rest) :=
  ⟨by decide, by decide, ⟨inv_lastCycleB, by decide, by decide⟩, exists_of_after (by decide),
    fun _ h => by cases h⟩

theorem witness_ArmedTransferCompletes :
    (busyB.Inv ∧ busyB.fault = none ∧ busyB.cfg.tier = .b ∧ busyB.engine = .transferring ∧
      busyB.inputs = []) ∧
    framePosition busyB + 47 < frameCycles busyB.cfg busyB.xferCount :=
  ⟨⟨inv_busyB, by decide, by decide, by decide, by decide⟩, by decide⟩

/-- The buffer's first and last byte and the byte past it; the table's first and last byte and the byte
below it; a read. -/
theorem witness_BorrowedRegionIsProtected :
    (legalProfile busyB.cfg.profile = true ∧ busyB.fault = none ∧ busyB.engine = .transferring) ∧
    ((busyB.xferAddr ≤ 0x0300 ∧ 0x0300 < busyB.xferAddr + busyB.xferCount) ∧
      (busyB.xferAddr ≤ 0x0301 ∧ 0x0301 < busyB.xferAddr + busyB.xferCount) ∧
      ¬ (busyB.xferAddr ≤ 0x0302 ∧ 0x0302 < busyB.xferAddr + busyB.xferCount) ∧
      busyB.cfg.gammaSpace = .const ∧ 0x0302 < spaceSize busyB.cfg) ∧
    (busyTableB.cfg.gammaSpace = .data ∧ busyTableB.xferGamma = some 0xFF00 ∧
      0xFF00 ≤ 0xFFFF ∧ 0xFFFF < 0xFF00 + 256 ∧ ¬ 0xFF00 ≤ 0xFEFF ∧ 0xFFFF < spaceSize busyTableB.cfg) ∧
    (doing (.write .data 0x0300 0) busyB).inputs = .host (.write .data 0x0300 0) :: [] ∧
    (busyB.readable .data 0x0300 = true ∧ busyTableB.readable .data 0xFF00 = true ∧
      busyTableB.readable .data 0xFFFF = true) := by decide

/-- An idle block of each tier: a read at the top of each space, of a hole, and one past the space; a write at
the top of `DATA`, one past it, and to `CONST`. -/
theorem witness_HostReadsAndWritesMemory :
    (legalProfile stateA.cfg.profile = true ∧ stateA.fault = none ∧ stateA.engine = .idle) ∧
    (legalProfile holedB.cfg.profile = true ∧ holedB.fault = none ∧ holedB.engine = .idle) ∧
    (stateA.readable .data 0xFFFF = true ∧ stateA.readable .const 0xFFFF = true ∧
      holedB.readable .data 0x0102 = false ∧ 0xFFFF < spaceSize stateA.cfg ∧
      0x0102 < spaceSize holedB.cfg ∧ spaceSize stateA.cfg ≤ 0x10000) ∧
    (stateA.borrowed .data 0xFFFF = false ∧ busyB.borrowed .data 0x0302 = false) ∧
    ((doing (.read .const 0xFFFF) stateA).inputs = .host (.read .const 0xFFFF) :: [] ∧
      (doing (.write .data 0xFFFF 0x55) stateA).inputs = .host (.write .data 0xFFFF 0x55) :: [] ∧
      (doing (.write .const 0 0) stateA).inputs = .host (.write .const 0 0) :: []) := by decide

theorem witness_MemoryWriteIsReadBack :
    Memory.wf stateB.dataMem = true ∧ Memory.wf [] = true ∧ 0x0300 ≠ 0x0301 := by decide

theorem witness_TimingProfileCheck :
    (let r : BuildRequest := ⟨some .a, some ⟨0, 44, 32, 12⟩, 0, 16, 16, .const, 0⟩
     legalProfile ⟨0, 44, 32, 12⟩ = false ∧ build r = .rejected .cfgOrder) ∧
    (let r : BuildRequest := ⟨some .a, some .default, 0, 16, 16, .const, 0⟩
     build r = .built Config.default) ∧
    legalProfile ({ Config.default with profile := ⟨0, 44, 32, 12⟩ } : Config).profile = false ∧
    legalProfile ⟨0, 3, 1, 2⟩ = true := by decide

theorem witness_UnresolvedBuildIsRejected :
    (let r : BuildRequest := ⟨none, some .default, 0, 16, 16, .const, 0⟩
     r.tier = none) ∧
    (let r : BuildRequest := ⟨some .b, none, 0, 16, 16, .const, 0⟩
     r.profile = none) := by decide

end Sys2Proof.Tests
end

/-! ## The configuration is constant (R8)

No command, host step, engine slot or reset writes `State.cfg`: one lemma per agent, from the model's
inversion lemmas. -/

namespace Sys2Proof.Machine

open Sys2Proof

variable {s t : State}

@[simp] theorem emitBlocking_cfg (addr n : Nat) (gamma : Option Nat) (s : State) :
    (emitBlocking addr n gamma s).cfg = s.cfg := by
  simp [emitBlocking]

@[simp] theorem armTransfer_cfg (addr n : Nat) (gamma : Option Nat) (s : State) :
    (armTransfer addr n gamma s).cfg = s.cfg := rfl

@[simp] theorem engineSlot_cfg (s : State) : (engineSlot s).cfg = s.cfg := by
  obtain ⟨-, h⟩ | ⟨-, h⟩ := engineSlot_cases s <;> simp [h]

/-- No command writes the configuration, whether it faults or takes effect. -/
theorem exec_next_cfg {i : Instr} (h : exec i s = .next t) : t.cfg = s.cfg := by
  cases i with
  | wsInit => obtain ⟨-, ⟨-, -, rfl⟩ | ⟨-, rfl⟩⟩ := execWsInit_next h <;> rfl
  | wsOut data count gamma =>
    obtain ⟨-, ⟨f, rfl⟩ | ⟨-, -, -, -, rfl⟩⟩ := execWsOut_next h
    · rfl
    · simp
  | wsOuta data count gamma =>
    obtain ⟨-, ⟨f, rfl⟩ | ⟨-, -, -, -, rfl⟩ | ⟨-, -, -, -, -, rfl⟩⟩ := execWsOuta_next h <;> rfl
  | wsCheck => obtain ⟨-, ⟨f, rfl⟩ | ⟨-, -, rfl⟩⟩ := execWsCheck_next h <;> rfl

/-- No host step writes the configuration: a command word, legal or not, a write or a read. -/
theorem hostStep_next_cfg {a : HostAction} (h : hostStep a s = .next t) : t.cfg = s.cfg := by
  cases a with
  | command w =>
    obtain ⟨i, -, hi⟩ | ⟨op, -, rfl⟩ := hostCommand_next h
    · exact (exec_next_cfg hi).trans (withoutReply_cfg s)
    · simp
  | write space addr v =>
    obtain ⟨-, -, ⟨-, rfl⟩ | ⟨-, rfl⟩⟩ := hostWrite_next h <;> simp
  | read space addr =>
    obtain ⟨-, ⟨-, rfl⟩ | ⟨-, rfl⟩⟩ := hostRead_next h <;> rfl

/-- No step writes the configuration, whichever event it takes (R8). -/
theorem step_next_cfg (h : step s = .next t) : t.cfg = s.cfg := by
  obtain ⟨-, ⟨-, -, rfl⟩ | ⟨rest, -, -, rfl⟩ | ⟨a, rest, -, -, hhost⟩ | ⟨rest, -, rfl⟩⟩ := step_next h
  · exact engineSlot_cfg s
  · exact engineSlot_cfg (takeEvent rest s)
  · exact (hostStep_next_cfg hhost).trans (takeEvent_cfg rest s)
  · rfl

/-- Settles O32: every agent's step keeps the configuration, and the default profile is R100's. -/
theorem configurationIsConstant : Obligations.ConfigurationIsConstant :=
  ⟨fun _ _ => step_next_cfg, rfl⟩

end Sys2Proof.Machine

/-! ## Host accesses to memory (R62)

What a host write and a host read answer, case by case, and then the machine's whole step on each. -/

namespace Sys2Proof.Machine

open Sys2Proof

variable {s : State} {addr : Nat} {rest : List Event}

/-- During a transfer the borrowed bytes of DATA are the buffer, and the table if it lies there (R30, R62). -/
theorem borrowed_data_iff (he : s.engine = .transferring) :
    s.borrowed .data addr = true ↔
      (s.xferAddr ≤ addr ∧ addr < s.xferAddr + s.xferCount) ∨
        (s.cfg.gammaSpace = .data ∧
          ∃ base, s.xferGamma = some base ∧ base ≤ addr ∧ addr < base + gammaEntries) := by
  rw [← inTransferRegion_data]
  simp [State.borrowed, he]

theorem hostWrite_of_borrowed {v : Byte} (ha : addr < spaceSize s.cfg) (hf : s.fault = none)
    (hb : s.borrowed .data addr = true) :
    hostWrite .data addr v s = .next { s with fault := some (.writeInFlight .data addr) } := by
  simp [hostWrite, Nat.not_le.2 ha, hb, hf]

theorem hostWrite_of_not_borrowed {v : Byte} (ha : addr < spaceSize s.cfg)
    (hb : s.borrowed .data addr = false) :
    hostWrite .data addr v s = .next (storeData addr v s) := by
  simp [hostWrite, Nat.not_le.2 ha, hb]

theorem hostRead_of_readable {space : Space} (hr : s.readable space addr = true) :
    hostRead space addr s = .next (withReply (s.readByte space addr) s) := by
  simp [hostRead, Nat.not_le.2 (lt_spaceSize_of_readable hr), hr]

/-- A host write to a borrowed byte records the fault, and the memory keeps the byte. -/
theorem step_write_of_borrowed {v : Byte} (hl : legalProfile s.cfg.profile = true)
    (hf : s.fault = none) (hi : s.inputs = .host (.write .data addr v) :: rest)
    (ha : addr < spaceSize s.cfg) (hb : s.borrowed .data addr = true) :
    step s = .next { s with inputs := rest, reply := none,
                            fault := some (.writeInFlight .data addr) } :=
  (step_of_host hl hf hi).trans (hostWrite_of_borrowed ha hf hb)

/-- A host write to any other byte of DATA is made, whatever the engine does. -/
theorem step_write_of_not_borrowed {v : Byte} (hl : legalProfile s.cfg.profile = true)
    (hf : s.fault = none) (hi : s.inputs = .host (.write .data addr v) :: rest)
    (ha : addr < spaceSize s.cfg) (hb : s.borrowed .data addr = false) :
    step s = .next { s with inputs := rest, reply := none,
                            dataMem := Memory.write s.dataMem addr v } :=
  (step_of_host hl hf hi).trans (hostWrite_of_not_borrowed ha hb)

/-- A host read of a readable byte returns it, borrowed or not. -/
theorem step_read_of_readable {space : Space} (hl : legalProfile s.cfg.profile = true)
    (hf : s.fault = none) (hi : s.inputs = .host (.read space addr) :: rest)
    (hr : s.readable space addr = true) :
    step s = .next { s with inputs := rest, reply := some (s.readByte space addr) } :=
  (step_of_host hl hf hi).trans (hostRead_of_readable hr)

/-- Settles O47: the buffer and the table in DATA are the borrowed bytes, a write asks only whether its byte is
borrowed, and a read does not ask. -/
theorem borrowedRegionIsProtected : Obligations.BorrowedRegionIsProtected := by
  intro s addr rest hl hf he ha
  refine ⟨fun v hi => ⟨fun hin => ?_, fun hout => ?_⟩, fun space hi hr _ => ?_⟩
  · exact step_write_of_borrowed hl hf hi ha ((borrowed_data_iff he).2 hin)
  · have hb : s.borrowed .data addr = false :=
      Bool.eq_false_iff.2 fun hb => hout ((borrowed_data_iff he).1 hb)
    exact step_write_of_not_borrowed hl hf hi ha hb
  · exact step_read_of_readable hl hf hi hr

end Sys2Proof.Machine

/-! ## The command codes (R72 to R74)

One decoder equation per code of each tier, and one for the codes that name no command. What an illegal word
does to the block follows from its decoding alone. -/

namespace Sys2Proof

variable {c : Config} {w : Nat}

theorem decode_of_op_one (h : opField w = 0x01) : decode c w = .command .wsInit := by
  simp [decode, h]

theorem decode_of_op_two (h : opField w = 0x02) (ht : c.tier = .a) :
    decode c w = .command (.wsOut (dataField c w) (countField c w) (gammaOperand c w)) := by
  simp [decode, h, ht]

theorem decode_of_op_three (h : opField w = 0x03) (ht : c.tier = .b) :
    decode c w = .command (.wsOuta (dataField c w) (countField c w) (gammaOperand c w)) := by
  simp [decode, h, ht]

theorem decode_of_op_four (h : opField w = 0x04) (ht : c.tier = .b) :
    decode c w = .command .wsCheck := by
  simp [decode, h, ht]

/-- A code that is reserved, or that names a command of the other tier, is illegal (R72): none of the four
decoder cases fits it. -/
theorem decode_of_illegal_code
    (h : opField w = 0x00 ∨ (opField w = 0x02 ∧ c.tier = .b) ∨
      ((opField w = 0x03 ∨ opField w = 0x04) ∧ c.tier = .a) ∨ 0x05 ≤ opField w) :
    decode c w = .illegal (BitVec.ofNat 8 (opField w)) := by
  cases hd : decode c w with
  | illegal op => rw [decode_illegal hd]
  | command i =>
    obtain ⟨hop, -⟩ | ⟨hop, ht, -⟩ | ⟨hop, ht, -⟩ | ⟨hop, ht, -⟩ := decode_command hd
    · simp [hop] at h
    · simp [hop, ht] at h
    · simp [hop, ht] at h
    · simp [hop, ht] at h

end Sys2Proof

namespace Sys2Proof.Machine

open Sys2Proof

variable {s : State} {w : Nat}

theorem hostCommand_of_command {i : Instr} (hd : decode s.cfg w = .command i) :
    hostCommand w s = exec i s := by
  simp [hostCommand, hd]

/-- An illegal word records its fault and changes nothing else; INITD is not asked (R72, R170). -/
theorem hostCommand_of_illegal {op : Byte} (hd : decode s.cfg w = .illegal op) (hf : s.fault = none) :
    hostCommand w s = .next { s with fault := some (.illegalCommand op) } := by
  simp [hostCommand, hd, hf]

/-- Settles O19: the decoder's equation for each code, and the effect of an illegal one. -/
theorem commandCodeTable : Obligations.CommandCodeTable := by
  refine ⟨fun _ _ => decode_of_op_one, fun _ _ => decode_of_op_two, fun _ _ => decode_of_op_three,
    fun _ _ => decode_of_op_four, fun c w hop => ⟨decode_of_illegal_code hop, ?_⟩⟩
  rintro s rfl hf
  exact hostCommand_of_illegal (decode_of_illegal_code hop) hf

/-- Settles O23: op 0x01 is INIT in both tiers; op 0x04 is CHECK_STATUS in Tier B and illegal in Tier A, under
the same op whatever the word. -/
theorem operandFreeCommandsIgnoreFields : Obligations.OperandFreeCommandsIgnoreFields := by
  intro c w w' hww hop
  obtain h1 | h4 := hop
  · rw [decode_of_op_one h1, decode_of_op_one (hww ▸ h1)]
  · have h4' : opField w' = 0x04 := hww ▸ h4
    cases ht : c.tier with
    | a => rw [decode_of_illegal_code (by simp [h4, ht]), decode_of_illegal_code (by simp [h4', ht]), hww]
    | b => rw [decode_of_op_four h4 ht, decode_of_op_four h4' ht]

end Sys2Proof.Machine

/-! ## Status results (R75)

A status is `engineStatus` of the engine state that the command finds, for both commands that return one. The
reply of a host step starts out as `none`, so what a command does not set it does not return. -/

namespace Sys2Proof.Machine

open Sys2Proof

variable {s t : State} {data count : Nat} {gamma : Option Nat}

/-- A status is 0x00 or 0x01 (R75). -/
theorem engineStatus_eq_zero_or_one (e : EngineState) : engineStatus e = 0x00 ∨ engineStatus e = 0x01 := by
  cases e with
  | idle => exact .inl rfl
  | transferring => exact .inr rfl

/-- INIT returns nothing (R75). -/
theorem execWsInit_next_reply (hr : s.reply = none) (h : execWsInit s = .next t) : t.reply = none := by
  obtain ⟨-, ⟨-, -, rfl⟩ | ⟨-, rfl⟩⟩ := execWsInit_next h
  · exact hr
  · rfl

/-- OUTPUT_SYNC returns nothing (R75). -/
theorem execWsOut_next_reply (hr : s.reply = none) (h : execWsOut data count gamma s = .next t) :
    t.reply = none := by
  obtain ⟨-, ⟨f, rfl⟩ | ⟨-, -, -, -, rfl⟩⟩ := execWsOut_next h
  · exact hr
  · rfl

/-- OUTPUT_ASYNC faults and leaves the reply alone, or returns the status of the engine it finds. -/
theorem execWsOuta_next_reply (h : execWsOuta data count gamma s = .next t) :
    (t.fault ≠ none ∧ t.reply = s.reply) ∨ t.reply = some (engineStatus s.engine) := by
  obtain ⟨-, ⟨f, rfl⟩ | ⟨-, -, -, he, rfl⟩ | ⟨-, -, -, he, -, rfl⟩⟩ := execWsOuta_next h
  · exact .inl ⟨Option.some_ne_none f, rfl⟩
  · exact .inr (by rw [he]; rfl)
  · exact .inr (by rw [he]; rfl)

/-- CHECK_STATUS faults and leaves the reply alone, or returns the status of the engine it finds. -/
theorem execWsCheck_next_reply (h : execWsCheck s = .next t) :
    (t.fault ≠ none ∧ t.reply = s.reply) ∨ t.reply = some (engineStatus s.engine) := by
  obtain ⟨-, ⟨f, rfl⟩ | ⟨-, -, rfl⟩⟩ := execWsCheck_next h
  · exact .inl ⟨Option.some_ne_none f, rfl⟩
  · exact .inr rfl

/-- Each command returns nothing or the status of the engine it finds. -/
theorem exec_next_reply {i : Instr} (hr : s.reply = none) (h : exec i s = .next t) :
    t.reply = none ∨ t.reply = some (engineStatus s.engine) := by
  cases i with
  | wsInit => exact .inl (execWsInit_next_reply hr h)
  | wsOut data count gamma => exact .inl (execWsOut_next_reply hr h)
  | wsOuta data count gamma => exact (execWsOuta_next_reply h).imp_left fun hk => hk.2.trans hr
  | wsCheck => exact (execWsCheck_next_reply h).imp_left fun hk => hk.2.trans hr

/-- Any command word, legal or not, returns nothing or the status of the engine it finds. -/
theorem hostCommand_next_reply {w : Nat} (hr : s.reply = none) (h : hostCommand w s = .next t) :
    t.reply = none ∨ t.reply = some (engineStatus s.engine) := by
  obtain ⟨i, -, hi⟩ | ⟨op, -, rfl⟩ := hostCommand_next h
  · exact exec_next_reply hr hi
  · exact .inl ((raise_reply _ s).trans hr)

/-- A step that takes a command word is the host's command, with the reply of the step before cleared. -/
theorem step_command_next {w : Nat} {rest : List Event} (hf : s.fault = none)
    (hi : s.inputs = .host (.command w) :: rest) (h : step s = .next t) :
    hostCommand w (withoutReply (takeEvent rest s)) = .next t := by
  obtain ⟨hl, -⟩ := step_next h
  exact (step_of_host hl hf hi).symm.trans h

/-- A step that takes a command's word runs the command, with the reply of the step before cleared. -/
theorem step_command_next_exec {w : Nat} {rest : List Event} {i : Instr} (hf : s.fault = none)
    (hi : s.inputs = .host (.command w) :: rest) (hd : decode s.cfg w = .command i)
    (h : step s = .next t) : exec i (withoutReply (takeEvent rest s)) = .next t :=
  (hostCommand_of_command (s := withoutReply (takeEvent rest s)) hd).symm.trans
    (step_command_next hf hi h)

/-- A status is 0x00 from an idle engine and 0x01 during a transfer, once the command is known not to fault. -/
theorem reply_by_engine (h : (t.fault ≠ none ∧ t.reply = s.reply) ∨ t.reply = some (engineStatus s.engine))
    (hf : t.fault = none) :
    (s.engine = .idle → t.reply = some 0x00) ∧ (s.engine = .transferring → t.reply = some 0x01) := by
  obtain ⟨hne, -⟩ | hreply := h
  · exact absurd hf hne
  · exact ⟨fun he => by rw [hreply, he]; rfl, fun he => by rw [hreply, he]; rfl⟩

/-- Settles O12: the step runs the decoded command on a state without a reply, and each command's reply is
known there. -/
theorem statusResultsAreZeroOrOne : Obligations.StatusResultsAreZeroOrOne := by
  intro s t w rest hf hi hstep
  have hexec {i : Instr} (hd : decode s.cfg w = .command i) :
      exec i (withoutReply (takeEvent rest s)) = .next t := step_command_next_exec hf hi hd hstep
  refine ⟨?_, fun hd => ?_, fun _ _ _ hd => ?_, fun _ _ _ hd hft => ?_, fun hd hft => ?_⟩
  · obtain hnone | hstatus := hostCommand_next_reply rfl (step_command_next hf hi hstep)
    · exact .inl hnone
    · rw [hstatus, Option.some_inj, Option.some_inj]
      exact .inr (engineStatus_eq_zero_or_one _)
  · exact execWsInit_next_reply rfl (hexec hd)
  · exact execWsOut_next_reply rfl (hexec hd)
  · exact reply_by_engine (s := withoutReply (takeEvent rest s)) (execWsOuta_next_reply (hexec hd)) hft
  · exact reply_by_engine (s := withoutReply (takeEvent rest s)) (execWsCheck_next_reply (hexec hd)) hft

end Sys2Proof.Machine

/-! ## The pseudo-instructions (R81) -/

namespace Sys2Proof.Machine

open Sys2Proof

/-- A line that is not an output line without its gamma operand stands for itself (R81). -/
theorem AsmLine.expand_eq_self {line : AsmLine} (ho : ∀ data count, line ≠ .out data count none)
    (ha : ∀ dest data count, line ≠ .outa dest data count none) : line.expand = line := by
  cases line with
  | init => rfl
  | out data count gamma =>
    cases gamma with
    | none => exact absurd rfl (ho data count)
    | some g => rfl
  | outa dest data count gamma =>
    cases gamma with
    | none => exact absurd rfl (ha dest data count)
    | some g => rfl
  | check dest => rfl

/-- Expansion keeps the command: a gamma operand left out and `none` are the same absent table (R80, R81). -/
theorem AsmLine.command_expand (line : AsmLine) : line.expand.command = line.command := by
  cases line with
  | init => rfl
  | out data count gamma => cases gamma <;> rfl
  | outa dest data count gamma => cases gamma <;> rfl
  | check dest => rfl

/-- Settles O26: the two expansions are the definition's own; no other line is expanded. -/
theorem pseudoInstructionsExpand : Obligations.PseudoInstructionsExpand :=
  ⟨fun _ _ => rfl, fun _ _ _ => rfl, fun _ => AsmLine.expand_eq_self, AsmLine.command_expand⟩

end Sys2Proof.Machine

/-! ## The timing profile and the build (R101, R102, R104)

The equation of `build` on resolved and on unresolved requests, the converse for a build that succeeds, and the
step of a state whose profile is illegal. -/

namespace Sys2Proof.Machine

open Sys2Proof

variable {r : BuildRequest} {c : Config} {p : TimingProfile} {s : State}

/-- The high-time of a 0 (R104). -/
@[simp] theorem thr_false (c : Config) : thr c false = c.profile.tLow := rfl

/-- The high-time of a 1 (R104). -/
@[simp] theorem thr_true (c : Config) : thr c true = c.profile.tHigh := rfl

/-- Settles O43: `thr_lt_tTotal` says that either high-time ends inside the period. -/
theorem highTimesLeaveALowTime : Obligations.HighTimesLeaveALowTime := by
  intro c hl
  refine ⟨thr_false c, thr_true c, fun b => ?_⟩
  have hlt := thr_lt_tTotal hl b
  exact ⟨Nat.sub_pos_of_lt hlt, hlt⟩

/-- A profile is rejected exactly when it is not in order (R101). -/
theorem legalProfile_eq_false_iff :
    legalProfile p = false ↔ ¬ (0 < p.tLow ∧ p.tLow < p.tHigh ∧ p.tHigh < p.tTotal) := by
  rw [← legalProfile_iff, Bool.not_eq_true]

/-- Two equal fields, or a zero `T_LOW`, break the order (R101). -/
theorem legalProfile_of_corner (h : p.tLow = 0 ∨ p.tLow = p.tHigh ∨ p.tHigh = p.tTotal) :
    legalProfile p = false := by
  refine legalProfile_eq_false_iff.2 fun ⟨hzero, hlow, hhigh⟩ => ?_
  obtain h | h | h := h
  · exact hzero.ne' h
  · exact hlow.ne h
  · exact hhigh.ne h

/-- No legal profile is below the smallest one, (1, 2, 3), in any field (R101). -/
theorem legalProfile_lower_bounds (h : legalProfile p = true) :
    1 ≤ p.tLow ∧ 2 ≤ p.tHigh ∧ 3 ≤ p.tTotal := by
  obtain ⟨hzero, hlow, hhigh⟩ := legalProfile_iff.1 h
  omega

/-- A request whose tier or clock class does not resolve has no build (R102). -/
theorem build_of_unresolved (h : r.tier = none ∨ r.profile = none) :
    build r = .rejected .cfgUnresolved := by
  unfold build
  obtain h | h := h
  · rw [h]
  · rw [h]
    cases r.tier <;> rfl

/-- A resolved request with a profile out of order has no build (R101). -/
theorem build_of_illegal {tier : Tier} (ht : r.tier = some tier) (hp : r.profile = some p)
    (hl : legalProfile p = false) : build r = .rejected .cfgOrder := by
  simp [build, ht, hp, hl]

/-- A build that succeeds carries the profile that was asked for, and it passed the check (R101). -/
theorem build_built (h : build r = .built c) :
    r.tier = some c.tier ∧ r.profile = some c.profile ∧ legalProfile c.profile = true := by
  unfold build at h
  split at h
  next ht hp =>
    split at h
    next hl => cases h; exact ⟨ht, hp, hl⟩
    next => cases h
  next => cases h

/-- A state whose profile is illegal has no step, not even a reset (R101). -/
theorem step_of_illegal (h : legalProfile s.cfg.profile = false) :
    step s = .refused (.illegalBuild .cfgOrder) := by
  simp [step, buildStep, h]

/-- Settles O49: the order that the check decides, the build's two outcomes under it, and the rule's corner
cases; the three example profiles are evaluated. -/
theorem timingProfileCheck : Obligations.TimingProfileCheck := by
  refine ⟨fun _ => legalProfile_iff, fun _ _ _ => build_of_illegal, fun _ _ hbuilt => ?_,
    fun _ => step_of_illegal, fun _ => legalProfile_of_corner, fun _ => legalProfile_lower_bounds,
    fun _ => ⟨rfl, rfl, rfl⟩⟩
  obtain ⟨-, -, hl⟩ := build_built hbuilt
  exact hl

/-- Settles O50: neither unresolved request reaches the check of the profile. -/
theorem unresolvedBuildIsRejected : Obligations.UnresolvedBuildIsRejected :=
  fun _ => build_of_unresolved

end Sys2Proof.Machine

/-! ## The transitions of STATE (R154, R158)

The equation of each Tier B command in each engine state, the engine's step by its place in the frame, and then
the converse: which host step changes STATE, which step arms a transfer, and which step completes one. -/

namespace Sys2Proof.Machine

open Sys2Proof

variable {s t : State} {data count : Nat} {gamma : Option Nat}

theorem EngineState.eq_transferring_of_ne_idle {e : EngineState} (h : e ≠ .idle) : e = .transferring := by
  cases e with
  | idle => exact absurd rfl h
  | transferring => rfl

theorem EngineState.eq_idle_of_ne_transferring {e : EngineState} (h : e ≠ .transferring) : e = .idle := by
  cases e with
  | idle => rfl
  | transferring => exact absurd rfl h

/-! ### The Tier B commands -/

/-- An idle engine accepts a request whose buffer and table are readable (R150, R151). -/
theorem execWsOuta_of_idle (hf : s.fault = none) (ht : s.cfg.tier = .b) (hd : s.initd = true)
    (hn : count ≠ 0) (hbuf : s.bufferReadable data count gamma) (htab : s.tableReadable gamma)
    (he : s.engine = .idle) :
    execWsOuta data count gamma s = .next (withReply statusAccepted (armTransfer data count gamma s)) := by
  have hregion : regionFault s data count gamma = none :=
    regionFault_eq_none.2 ⟨hbuf.1, tableFault_eq_none.2 htab⟩
  simp [execWsOuta, hf, ht, hd, hn, he, hregion]

/-- During a transfer the answer is Busy, whatever the buffer and the table (R150). -/
theorem execWsOuta_of_transferring (hf : s.fault = none) (ht : s.cfg.tier = .b) (hd : s.initd = true)
    (hn : count ≠ 0) (he : s.engine = .transferring) :
    execWsOuta data count gamma s = .next (withReply statusBusy s) := by
  simp [execWsOuta, hf, ht, hd, hn, he]

theorem execWsCheck_of_initd (hf : s.fault = none) (ht : s.cfg.tier = .b) (hd : s.initd = true) :
    execWsCheck s = .next (withReply (engineStatus s.engine) s) := by
  simp [execWsCheck, hf, ht, hd]

theorem execWsInit_of_idle (hf : s.fault = none) (he : s.engine = .idle) :
    execWsInit s = .next (withoutReply { s with line := false, initd := true }) := by
  simp [execWsInit, hf, he]

theorem execWsInit_of_transferring (hf : s.fault = none) (ht : s.cfg.tier = .b)
    (he : s.engine = .transferring) :
    execWsInit s = .next { s with fault := some .initWhileBusy } := by
  simp [execWsInit, hf, ht, he]

/-! ### The engine's step -/

theorem engineEnabled_of_idle (he : s.engine = .idle) : s.engineEnabled = false := by
  simp [State.engineEnabled, he]

theorem engineSlot_of_idle (he : s.engine = .idle) : engineSlot s = s := by
  simp [engineSlot, engineEnabled_of_idle he]

/-- The engine's step completes the transfer in the last cycle of its frame and in no other (R154). -/
theorem engineSlot_engine (hi : s.Inv) (hen : s.engineEnabled = true) :
    (engineSlot s).engine =
      if framePosition s + 1 = frameCycles s.cfg s.xferCount then .idle else .transferring := by
  obtain ⟨-, he, -, -⟩ := engineEnabled_iff.1 hen
  obtain ⟨hat, hlt⟩ := hi.timerAt he
  rw [← hi.seqLength] at hlt ⊢
  obtain ⟨-, -, hcycle⟩ := timerCycle_at hi.legal hat hlt
  rw [engineSlot, if_pos hen, hcycle, he]

theorem engineSlot_engine_of_last (hi : s.Inv) (hen : s.engineEnabled = true)
    (hlast : framePosition s + 1 = frameCycles s.cfg s.xferCount) : (engineSlot s).engine = .idle := by
  rw [engineSlot_engine hi hen, if_pos hlast]

theorem engineSlot_engine_of_not_last (hi : s.Inv) (hen : s.engineEnabled = true)
    (hlast : framePosition s + 1 ≠ frameCycles s.cfg s.xferCount) :
    (engineSlot s).engine = .transferring := by
  rw [engineSlot_engine hi hen, if_neg hlast]

/-- A slot that completes a transfer is an enabled engine's step in the frame's last cycle (R154). -/
theorem last_cycle_of_engineSlot_idle (hi : s.Inv) (he : s.engine = .transferring)
    (ht : (engineSlot s).engine = .idle) :
    s.engineEnabled = true ∧ framePosition s + 1 = frameCycles s.cfg s.xferCount := by
  obtain ⟨hen, -⟩ | ⟨-, hstay⟩ := engineSlot_cases s
  · refine ⟨hen, by_contra fun hlast => ?_⟩
    rw [engineSlot_engine_of_not_last hi hen hlast] at ht
    cases ht
  · rw [hstay, he] at ht
    cases ht

/-! ### The steps that change STATE -/

/-- Only OUTPUT_ASYNC changes STATE: it found the engine idle and returned 0. Tier A's engine is idle before its
command (R25) and after it. -/
theorem exec_next_engine {i : Instr} (hl : legalProfile s.cfg.profile = true)
    (hA : s.cfg.tier = .a → s.engine = .idle) (h : exec i s = .next t) (hne : t.engine ≠ s.engine) :
    s.engine = .idle ∧ t.reply = some 0x00 ∧ ∃ data count gamma, i = .wsOuta data count gamma := by
  cases i with
  | wsInit =>
    obtain ⟨-, ⟨-, -, rfl⟩ | ⟨-, rfl⟩⟩ := execWsInit_next h <;> exact absurd rfl hne
  | wsOut data count gamma =>
    obtain ⟨-, ⟨f, rfl⟩ | ⟨ht, -, hn, -, rfl⟩⟩ := execWsOut_next h
    · exact absurd rfl hne
    · have hidle : (withoutReply (emitBlocking data count gamma s)).engine = .idle := by
        rw [emitBlocking_eq hl hn]
      exact absurd (hidle.trans (hA ht).symm) hne
  | wsOuta data count gamma =>
    obtain ⟨-, ⟨f, rfl⟩ | ⟨-, -, -, -, rfl⟩ | ⟨-, -, -, he, -, rfl⟩⟩ := execWsOuta_next h
    · exact absurd rfl hne
    · exact absurd rfl hne
    · exact ⟨he, rfl, data, count, gamma, rfl⟩
  | wsCheck =>
    obtain ⟨-, ⟨f, rfl⟩ | ⟨-, -, rfl⟩⟩ := execWsCheck_next h <;> exact absurd rfl hne

/-- The only host step that changes STATE is the word of an accepted OUTPUT_ASYNC; an illegal word, a write and a
read do not. -/
theorem hostStep_next_engine {a : HostAction} (hl : legalProfile s.cfg.profile = true)
    (hA : s.cfg.tier = .a → s.engine = .idle) (h : hostStep a s = .next t) (hne : t.engine ≠ s.engine) :
    s.engine = .idle ∧ t.reply = some 0x00 ∧ ∃ w data count gamma, a = .command w ∧
      decode s.cfg w = .command (.wsOuta data count gamma) := by
  cases a with
  | command w =>
    obtain ⟨i, hdec, hexec⟩ | ⟨op, -, rfl⟩ := hostCommand_next h
    · obtain ⟨he, hreply, data, count, gamma, rfl⟩ :=
        exec_next_engine (s := withoutReply s) hl hA hexec hne
      exact ⟨he, hreply, w, data, count, gamma, rfl, hdec⟩
    · exact absurd (raise_engine _ _) hne
  | write space addr v =>
    obtain ⟨-, -, ⟨-, rfl⟩ | ⟨-, rfl⟩⟩ := hostWrite_next h
    · exact absurd (raise_engine _ _) hne
    · exact absurd rfl hne
  | read space addr =>
    obtain ⟨-, ⟨-, rfl⟩ | ⟨-, rfl⟩⟩ := hostRead_next h <;> exact absurd rfl hne

/-- A step that starts a transfer is an accepted OUTPUT_ASYNC (R154): an idle engine's slot does nothing, and a
reset leaves the engine idle. -/
theorem step_next_arms (he : s.engine = .idle) (h : step s = .next t) (ht : t.engine = .transferring) :
    ∃ w rest data count gamma, s.inputs = .host (.command w) :: rest ∧
      decode s.cfg w = .command (.wsOuta data count gamma) ∧ t.reply = some 0x00 := by
  have hne : t.engine ≠ s.engine := by simp [he, ht]
  obtain ⟨hl, ⟨-, -, rfl⟩ | ⟨rest, -, -, rfl⟩ | ⟨a, rest, hin, -, hhost⟩ | ⟨rest, -, rfl⟩⟩ := step_next h
  · exact absurd (by rw [engineSlot_of_idle he]) hne
  · have hslot : engineSlot (takeEvent rest s) = takeEvent rest s := engineSlot_of_idle he
    exact absurd (by rw [hslot, takeEvent_engine]) hne
  · obtain ⟨-, hreply, w, data, count, gamma, rfl, hdec⟩ :=
      hostStep_next_engine (s := takeEvent rest s) hl (fun _ => he) hhost hne
    exact ⟨w, rest, data, count, gamma, hin, hdec, hreply⟩
  · cases ht

/-- Taking an event off the schedule keeps the invariant. -/
theorem State.Inv.takeEvent (hi : s.Inv) (rest : List Event) : (takeEvent rest s).Inv :=
  hi.congr rfl rfl rfl rfl rfl rfl rfl rfl rfl rfl rfl rfl rfl rfl

/-- A step that ends a transfer, a reset apart, is the engine's in the last cycle of the frame (R154). -/
theorem step_next_completes (hi : s.Inv) (hreset : ∀ rest, s.inputs ≠ .reset :: rest)
    (he : s.engine = .transferring) (h : step s = .next t) (ht : t.engine = .idle) :
    s.engineEnabled = true ∧ framePosition s + 1 = frameCycles s.cfg s.xferCount ∧
      (s.inputs = [] ∨ ∃ rest, s.inputs = .engine :: rest) := by
  obtain ⟨hl, ⟨hin, -, rfl⟩ | ⟨rest, hin, -, rfl⟩ | ⟨a, rest, -, -, hhost⟩ | ⟨rest, hin, -⟩⟩ := step_next h
  · obtain ⟨hen, hlast⟩ := last_cycle_of_engineSlot_idle hi he ht
    exact ⟨hen, hlast, .inl hin⟩
  · obtain ⟨hen, hlast⟩ := last_cycle_of_engineSlot_idle (hi.takeEvent rest) he ht
    exact ⟨hen, hlast, .inr ⟨rest, hin⟩⟩
  · obtain ⟨hidle, -⟩ := hostStep_next_engine (s := takeEvent rest s) hl hi.tierAIdle hhost (by simp [he, ht])
    rw [takeEvent_engine, he] at hidle
    cases hidle
  · exact absurd hin (hreset rest)

/-- Settles O44: the engine's step by its place in the frame; an idle engine has no step, the one after
completion included; `step_next_arms`. -/
theorem transferCompletesInItsLastCycle : Obligations.TransferCompletesInItsLastCycle := by
  refine ⟨fun s hi hen => ⟨fun hlast => ?_, engineSlot_engine_of_not_last hi hen⟩,
    fun _ => engineEnabled_of_idle, fun _ _ => step_next_arms⟩
  have hidle := engineSlot_engine_of_last hi hen hlast
  exact ⟨hidle, engineEnabled_of_idle hidle⟩

/-- Settles O45: each row is its command's equation or the engine's last cycle; a step that changes STATE
starts a transfer from Idle or ends one. -/
theorem engineStateTransitions : Obligations.EngineStateTransitions := by
  refine ⟨fun s data count gamma hf ht hd hn hbuf htab he => ?accepted,
    fun s data count gamma hf ht hd hn he => execWsOuta_of_transferring hf ht hd hn he,
    fun s hi hen hlast => engineSlot_engine_of_last hi hen hlast,
    fun s hf ht hd => ?check, fun s hf ht => ?init, fun s t hi hreset h hne => ?noOther, rfl⟩
  case accepted => exact ⟨_, execWsOuta_of_idle hf ht hd hn hbuf htab he, rfl, rfl⟩
  case check =>
    have hcheck := execWsCheck_of_initd hf ht hd
    constructor <;> intro he <;> rw [he] at hcheck <;> exact hcheck
  case init =>
    exact ⟨fun he => ⟨_, execWsInit_of_idle hf he, hf, he, rfl⟩, execWsInit_of_transferring hf ht⟩
  case noOther =>
    cases he : s.engine with
    | idle =>
      have harmed : t.engine = .transferring := EngineState.eq_transferring_of_ne_idle (he ▸ hne)
      obtain ⟨w, rest, data, count, gamma, hin, hdec, hreply⟩ := step_next_arms he h harmed
      exact .inl ⟨rfl, harmed, hreply, w, rest, data, count, gamma, hin, hdec⟩
    | transferring =>
      have hidle : t.engine = .idle := EngineState.eq_idle_of_ne_transferring (he ▸ hne)
      exact .inr ⟨rfl, hidle, step_next_completes hi hreset he h hidle⟩

end Sys2Proof.Machine

/-! ## Raising a fault (R170)

A command or host step that answers a state with a fault has recorded that fault and written nothing else: the
model's inversion lemmas give each answer, and an answer that takes effect carries the fault it began with, which
was none. -/

namespace Sys2Proof.Machine

open Sys2Proof

variable {s t : State}

@[simp] theorem emitBlocking_fault (addr n : Nat) (gamma : Option Nat) (s : State) :
    (emitBlocking addr n gamma s).fault = s.fault := by
  simp [emitBlocking, syncStart]

@[simp] theorem armTransfer_fault (addr n : Nat) (gamma : Option Nat) (s : State) :
    (armTransfer addr n gamma s).fault = s.fault := rfl

/-- The engine raises no fault (R152). -/
@[simp] theorem engineSlot_fault (s : State) : (engineSlot s).fault = s.fault := by
  obtain ⟨-, h⟩ | ⟨-, h⟩ := engineSlot_cases s <;> simp [h]

theorem raise_eq_with_fault (f : Raised) (s : State) :
    raise f s = { s with fault := (raise f s).fault } := by
  cases h : s.fault with
  | none => simp [h]
  | some g => rw [raise_of_some h]

/-- A command that ends in a fault has written FAULT and nothing else (R170, R175). -/
theorem exec_next_of_fault {i : Instr} (h : exec i s = .next t) (ht : t.fault ≠ none) :
    t = { s with fault := t.fault } := by
  cases i with
  | wsInit =>
    obtain ⟨hf, ⟨-, -, rfl⟩ | ⟨-, rfl⟩⟩ := execWsInit_next h
    · rfl
    · exact absurd hf ht
  | wsOut data count gamma =>
    obtain ⟨hf, ⟨f, rfl⟩ | ⟨-, -, -, -, rfl⟩⟩ := execWsOut_next h
    · rfl
    · exact absurd ((emitBlocking_fault data count gamma s).trans hf) ht
  | wsOuta data count gamma =>
    obtain ⟨hf, ⟨f, rfl⟩ | ⟨-, -, -, -, rfl⟩ | ⟨-, -, -, -, -, rfl⟩⟩ := execWsOuta_next h
    · rfl
    · exact absurd hf ht
    · exact absurd hf ht
  | wsCheck =>
    obtain ⟨hf, ⟨f, rfl⟩ | ⟨-, -, rfl⟩⟩ := execWsCheck_next h
    · rfl
    · exact absurd hf ht

/-- A host step that ends in a fault has written FAULT, and returns nothing to the host (R170). -/
theorem hostStep_next_of_fault {a : HostAction} (hf : s.fault = none) (h : hostStep a s = .next t)
    (ht : t.fault ≠ none) : t = { s with fault := t.fault, reply := none } := by
  cases a with
  | command w =>
    obtain ⟨i, -, hexec⟩ | ⟨op, -, rfl⟩ := hostCommand_next h
    · exact exec_next_of_fault hexec ht
    · exact raise_eq_with_fault _ _
  | write space addr v =>
    obtain ⟨-, -, ⟨-, rfl⟩ | ⟨-, rfl⟩⟩ := hostWrite_next h
    · exact raise_eq_with_fault _ _
    · exact absurd hf ht
  | read space addr =>
    obtain ⟨-, ⟨-, rfl⟩ | ⟨-, rfl⟩⟩ := hostRead_next h <;> exact absurd hf ht

/-- A step that ends in a fault has written FAULT, besides taking its event and clearing the reply: it was a host
step, since neither the engine nor a reset raises a fault (R170). -/
theorem step_next_of_fault (hf : s.fault = none) (h : step s = .next t) (ht : t.fault ≠ none) :
    ∃ rest, t = { s with fault := t.fault, inputs := rest, reply := none } := by
  obtain ⟨-, ⟨-, -, rfl⟩ | ⟨rest, -, -, rfl⟩ | ⟨a, rest, -, -, hhost⟩ | ⟨rest, -, rfl⟩⟩ := step_next h
  · exact absurd ((engineSlot_fault s).trans hf) ht
  · exact absurd ((engineSlot_fault (takeEvent rest s)).trans hf) ht
  · exact ⟨rest, hostStep_next_of_fault (s := takeEvent rest s) hf hhost ht⟩
  · exact absurd (resetBlock_fault _) ht

/-- In a faulted state neither the host nor the engine has a step (R170, R176). -/
theorem step_of_faulted {g : Raised} (hl : legalProfile s.cfg.profile = true) (hf : s.fault = some g)
    (hreset : ∀ rest, s.inputs ≠ .reset :: rest) : step s = .fault (.halted g) := by
  rw [step_of_legal hl, agentStep]
  split
  next => exact running_of_some hf
  next => exact running_of_some hf
  next => exact running_of_some hf
  next rest hin => exact absurd hin (hreset rest)

/-- A reset event is taken in any state of a legal build, a faulted one too (R176, R190). -/
theorem step_of_reset {rest : List Event} (hl : legalProfile s.cfg.profile = true)
    (hi : s.inputs = .reset :: rest) : step s = .next (resetBlock (takeEvent rest s)) := by
  rw [step_of_legal hl, agentStep, hi]

/-- A faulted state is no successful end (R199). -/
theorem ended_of_faulted {g : Raised} (hf : s.fault = some g) : s.ended = false := by
  simp [State.ended, hf]

/-- Settles O15: the two equations of `raise`, the steps of a faulted machine, and what a faulting step leaves. -/
theorem raiseRecordsAndStops : Obligations.RaiseRecordsAndStops :=
  ⟨fun _ _ => raise_of_none, fun _ _ _ => raise_of_some, fun _ _ hf hl => step_of_faulted hl hf,
    fun _ _ => ended_of_faulted, fun _ _ => step_next_of_fault,
    fun _ s rest _ hl hi => ⟨_, step_of_reset hl hi, resetBlock_fault (takeEvent rest s)⟩⟩

end Sys2Proof.Machine

/-! ## The order of a command's checks (R174)

One equation per failing check of each output, with every earlier check passed, and the two forms that the last
check takes: the lowest unreadable buffer byte, or with a readable buffer the lowest unreadable table byte. -/

namespace Sys2Proof.Machine

open Sys2Proof

variable {s : State} {data count k : Nat} {gamma : Option Nat}

/-! ### The region that an output checks -/

/-- The offsets that Tier A checks: the buffer's, and the trailing byte's if there is a table (R60, R133). -/
theorem lt_tierASpan_iff : k < tierASpan count gamma ↔ k < count ∨ (k = count ∧ gamma ≠ none) := by
  cases gamma with
  | none => simp [tierASpan]
  | some base => simp [tierASpan, Nat.le_iff_lt_or_eq]

/-- A buffer that Tier A can read is readable over all the offsets it checks (R132, R133). -/
theorem State.bufferReadable.readable_of_lt_span (h : s.bufferReadable data count gamma) (ht : s.cfg.tier = .a) :
    ∀ i, i < tierASpan count gamma → s.readable .data (data + i) = true := by
  intro i hi
  obtain hlt | ⟨rfl, hgamma⟩ := lt_tierASpan_iff.1 hi
  · exact h.1 i hlt
  · exact h.2 ht hgamma

/-! ### The checks of each command -/

theorem execWsOut_of_not_initd (hf : s.fault = none) (ht : s.cfg.tier = .a) (hd : s.initd = false) :
    execWsOut data count gamma s = .next { s with fault := some .notInitialized } := by
  simp [execWsOut, hf, ht, hd]

theorem execWsOut_of_zero (hf : s.fault = none) (ht : s.cfg.tier = .a) (hd : s.initd = true) :
    execWsOut data 0 gamma s = .next { s with fault := some .zeroCount } := by
  simp [execWsOut, hf, ht, hd]

theorem execWsOut_of_regionFault {f : Raised} (hf : s.fault = none) (ht : s.cfg.tier = .a)
    (hd : s.initd = true) (hn : count ≠ 0)
    (hr : regionFault s data (tierASpan count gamma) gamma = some f) :
    execWsOut data count gamma s = .next { s with fault := some f } := by
  simp [execWsOut, hf, ht, hd, hn, hr]

theorem execWsOuta_of_not_initd (hf : s.fault = none) (ht : s.cfg.tier = .b) (hd : s.initd = false) :
    execWsOuta data count gamma s = .next { s with fault := some .notInitialized } := by
  simp [execWsOuta, hf, ht, hd]

/-- A zero count faults whatever the engine does: its check comes before the Busy result (R150, R174). -/
theorem execWsOuta_of_zero (hf : s.fault = none) (ht : s.cfg.tier = .b) (hd : s.initd = true) :
    execWsOuta data 0 gamma s = .next { s with fault := some .zeroCount } := by
  simp [execWsOuta, hf, ht, hd]

theorem execWsOuta_of_regionFault {f : Raised} (hf : s.fault = none) (ht : s.cfg.tier = .b)
    (hd : s.initd = true) (hn : count ≠ 0) (he : s.engine = .idle)
    (hr : regionFault s data count gamma = some f) :
    execWsOuta data count gamma s = .next { s with fault := some f } := by
  simp [execWsOuta, hf, ht, hd, hn, he, hr]

theorem execWsCheck_of_not_initd (hf : s.fault = none) (ht : s.cfg.tier = .b) (hd : s.initd = false) :
    execWsCheck s = .next { s with fault := some .notInitialized } := by
  simp [execWsCheck, hf, ht, hd]

/-- Settles O14: each clause is the command's equation at its first failing check. -/
theorem faultPriorityOrder : Obligations.FaultPriorityOrder := by
  refine ⟨fun s w op hf hdec => hostCommand_of_illegal hdec hf,
    fun s hf hd => ⟨fun ht _ _ _ => execWsOut_of_not_initd hf ht hd,
      fun ht => ⟨fun _ _ _ => execWsOuta_of_not_initd hf ht hd, execWsCheck_of_not_initd hf ht hd⟩⟩,
    fun s => execWsInit_of_transferring,
    fun s data gamma hf hd =>
      ⟨fun ht => execWsOut_of_zero hf ht hd, fun ht => execWsOuta_of_zero hf ht hd⟩,
    fun s data count gamma hf hd ht => execWsOuta_of_transferring hf ht hd,
    fun s data count gamma k hf hd ht hn hk hall hbad => ?bufferA,
    fun s data count gamma k hf hd ht he hn hk hall hbad => ?bufferB,
    fun s data count base k hf hd hn hbuf hk hall hbad => ⟨fun ht => ?tableA, fun ht he => ?tableB⟩,
    fun s addr v hf ha => ⟨hostWrite_of_borrowed ha hf, hostWrite_of_not_borrowed ha⟩⟩
  case bufferA =>
    exact execWsOut_of_regionFault hf ht hd hn (regionFault_of_buffer (lt_tierASpan_iff.2 hk) hall hbad)
  case bufferB =>
    exact execWsOuta_of_regionFault hf ht hd hn he (regionFault_of_buffer hk hall hbad)
  case tableA =>
    exact execWsOut_of_regionFault hf ht hd hn (regionFault_of_table (hbuf.readable_of_lt_span ht) hk hall hbad)
  case tableB =>
    exact execWsOuta_of_regionFault hf ht hd hn he (regionFault_of_table hbuf.1 hk hall hbad)

end Sys2Proof.Machine

/-! ## What reset sets (R190) -/

namespace Sys2Proof.Machine

open Sys2Proof

/-! ### `State.boot`

The machine right after reset: the build and the launch memory are the ones given, and each register that R35
specifies holds its value. -/

section
variable (c : Config) (holes : List Region) (dataMem constMem : Memory)

@[simp] theorem State.boot_cfg : (State.boot c holes dataMem constMem).cfg = c := rfl
@[simp] theorem State.boot_holes : (State.boot c holes dataMem constMem).holes = holes := rfl
@[simp] theorem State.boot_dataMem : (State.boot c holes dataMem constMem).dataMem = dataMem := rfl
@[simp] theorem State.boot_constMem : (State.boot c holes dataMem constMem).constMem = constMem := rfl
@[simp] theorem State.boot_initd : (State.boot c holes dataMem constMem).initd = false := rfl
@[simp] theorem State.boot_engine : (State.boot c holes dataMem constMem).engine = .idle := rfl
@[simp] theorem State.boot_fault : (State.boot c holes dataMem constMem).fault = none := rfl
@[simp] theorem State.boot_wire : (State.boot c holes dataMem constMem).wire = [] := rfl

end

/-- Settles O31: a reset event steps to `resetBlock` whatever FAULT holds (`step_of_reset`), and the fields of
`resetBlock` and of `State.boot` are the ones R190 gives. -/
theorem resetSetsTheSpecifiedValues : Obligations.ResetSetsTheSpecifiedValues := by
  refine ⟨fun s rest hl hi => ⟨resetBlock (takeEvent rest s), step_of_reset hl hi, ?afterEvent⟩,
    fun c holes dataMem constMem => ?atBoot⟩
  case afterEvent =>
    simp only [resetBlock_initd, resetBlock_engine, resetBlock_fault, resetBlock_wire, resetBlock_cfg,
      resetBlock_holes, resetBlock_dataMem, resetBlock_constMem, takeEvent_cfg, takeEvent_holes,
      takeEvent_dataMem, takeEvent_constMem, and_self]
  case atBoot =>
    simp only [State.boot_initd, State.boot_engine, State.boot_fault, State.boot_wire, State.boot_cfg,
      State.boot_dataMem, State.boot_constMem, and_self]

end Sys2Proof.Machine

/-! ## Decoding and encoding (R71 to R73, R76, R80)

One decoder equation for a packed word of each output command; the fields of a word packed again; and the decoder
as a function of the fields it reads. -/

namespace Sys2Proof

variable {c : Config} {w w' data count : Nat} {gamma : Option Nat}

/-- A packed OUTPUT_SYNC reads back in Tier A (R71, R72). -/
theorem decode_packFields_out (ht : c.tier = .a) (hfit : operandsFit c data count gamma = true) :
    decode c (packFields c 0x02 data count gamma) = .command (.wsOut data count gamma) := by
  obtain ⟨hd, hn, hg⟩ := operandsFit_iff.1 hfit
  obtain ⟨hop, -, hdata, hcount, -, -⟩ := fields_packFields (op := 0x02) (by decide) hd hn hg
  rw [decode_of_op_two hop ht, hdata, hcount, gammaOperand_packFields (by decide) hd hn hg]

/-- A packed OUTPUT_ASYNC reads back in Tier B (R71, R72). -/
theorem decode_packFields_outa (ht : c.tier = .b) (hfit : operandsFit c data count gamma = true) :
    decode c (packFields c 0x03 data count gamma) = .command (.wsOuta data count gamma) := by
  obtain ⟨hd, hn, hg⟩ := operandsFit_iff.1 hfit
  obtain ⟨hop, -, hdata, hcount, -, -⟩ := fields_packFields (op := 0x03) (by decide) hd hn hg
  rw [decode_of_op_three hop ht, hdata, hcount, gammaOperand_packFields (by decide) hd hn hg]

/-- The code of a word with no operands reads back (R74, R80). -/
theorem opField_packFields_zero {op : Nat} (ho : op < 2 ^ 8) : opField (packFields c op 0 0 none) = op :=
  (fields_packFields ho (Nat.two_pow_pos _) (Nat.two_pow_pos _) (Nat.two_pow_pos _)).1

/-- A code and operands that fit their fields pack into a word (R71). -/
theorem packFields_lt {op : Nat} (ho : op < 2 ^ 8) (hfit : operandsFit c data count gamma = true) :
    packFields c op data count gamma < 2 ^ c.wordBits := by
  obtain ⟨hd, hn, hg⟩ := operandsFit_iff.1 hfit
  obtain ⟨-, -, -, -, -, hlt⟩ := fields_packFields ho hd hn hg
  exact hlt

theorem operandsFit_zero (c : Config) : operandsFit c 0 0 none = true :=
  operandsFit_iff.2 ⟨Nat.two_pow_pos _, Nat.two_pow_pos _, Nat.two_pow_pos _⟩

/-- The word of a command whose operands fit is a word of the build (R71). -/
theorem encode_lt {i : Instr} (hfit : i.fits c = true) : encode c i < 2 ^ c.wordBits := by
  cases i with
  | wsInit => exact packFields_lt (by decide) (operandsFit_zero c)
  | wsOut data count gamma => exact packFields_lt (by decide : 0x02 < 2 ^ 8) hfit
  | wsOuta data count gamma => exact packFields_lt (by decide : 0x03 < 2 ^ 8) hfit
  | wsCheck => exact packFields_lt (by decide) (operandsFit_zero c)

/-- In a build that has the command, its word decodes to it (R72). -/
theorem decode_encode {i : Instr} (hlegal : i.legalIn c.tier = true) (hfit : i.fits c = true) :
    decode c (encode c i) = .command i := by
  cases i with
  | wsInit => exact decode_of_op_one (opField_packFields_zero (by decide))
  | wsOut data count gamma => exact decode_packFields_out (eq_of_beq hlegal) hfit
  | wsOuta data count gamma => exact decode_packFields_outa (eq_of_beq hlegal) hfit
  | wsCheck => exact decode_of_op_four (opField_packFields_zero (by decide)) (eq_of_beq hlegal)

/-- Settles O20: the packed fields fit the word and read back. -/
theorem decodeOfEncodeIsTheCommand : Obligations.DecodeOfEncodeIsTheCommand := by
  intro c i hwf
  obtain ⟨hlegal, hfit⟩ := Bool.and_eq_true_iff.1 hwf
  exact ⟨encode_lt hfit, decode_encode hlegal hfit⟩

/-! ### A word's own fields packed again -/

theorem gammaOperand_of_gp_one (h : gpField w = 1) : gammaOperand c w = some (gammaField c w) := by
  simp [gammaOperand, h]

theorem gammaOperand_of_gp_zero (h : gpField w = 0) : gammaOperand c w = none := by
  simp [gammaOperand, h]

/-- The four fields below `gamma` are the bits below it (R71). -/
theorem low_fields (c : Config) (w : Nat) :
    opField w + gpField w * 2 ^ 8 + dataField c w * 2 ^ 9 + countField c w * 2 ^ (9 + c.addrBits) =
      w % 2 ^ (9 + c.addrBits + c.countBits) := by
  have hop : opField w = w % 2 ^ 8 := by simp [opField, wordField]
  have hgp : w % 2 ^ 8 + gpField w * 2 ^ 8 = w % 2 ^ 9 := low_add_field w 8 1
  have hdata : w % 2 ^ 9 + dataField c w * 2 ^ 9 = w % 2 ^ (9 + c.addrBits) := low_add_field w 9 c.addrBits
  rw [hop, hgp, hdata]
  exact low_add_field w (9 + c.addrBits) c.countBits

/-- With a table, packing the fields of a word gives the word back (R71, R73). -/
theorem packFields_of_gp_one (hw : w < 2 ^ c.wordBits) (h : gpField w = 1) :
    packFields c (opField w) (dataField c w) (countField c w) (gammaOperand c w) = w := by
  have hbits : c.wordBits = 9 + c.addrBits + c.countBits + c.addrBits := by
    unfold Config.wordBits; omega
  have hgp : gpBit (gammaOperand c w) = gpField w := by rw [gammaOperand_of_gp_one h, h]; rfl
  have hgamma : (gammaOperand c w).getD 0 = gammaField c w := by rw [gammaOperand_of_gp_one h]; rfl
  rw [hbits] at hw
  rw [packFields, hgp, hgamma, low_fields]
  exact (low_add_field w (9 + c.addrBits + c.countBits) c.addrBits).trans (Nat.mod_eq_of_lt hw)

/-- Without one, it gives the bits below the ignored `gamma` field (R73, R80). -/
theorem packFields_of_gp_zero (h : gpField w = 0) :
    packFields c (opField w) (dataField c w) (countField c w) (gammaOperand c w) =
      w % 2 ^ (9 + c.addrBits + c.countBits) := by
  have hgp : gpBit (gammaOperand c w) = gpField w := by rw [gammaOperand_of_gp_zero h, h]; rfl
  rw [packFields, hgp, low_fields, gammaOperand_of_gp_zero h, Option.getD_none, Nat.zero_mul, Nat.add_zero]

/-- An output command decoded from a word is encoded by packing the word's fields. -/
theorem encode_of_decode {i : Instr} (h : decode c w = .command i) (hinit : i ≠ .wsInit)
    (hcheck : i ≠ .wsCheck) :
    encode c i = packFields c (opField w) (dataField c w) (countField c w) (gammaOperand c w) := by
  obtain ⟨-, rfl⟩ | ⟨hop, -, rfl⟩ | ⟨hop, -, rfl⟩ | ⟨-, -, rfl⟩ := decode_command h
  · exact absurd rfl hinit
  · rw [hop]; rfl
  · rw [hop]; rfl
  · exact absurd rfl hcheck

/-- Settles O21: what the decoder reads is the word's fields, and packing them gives the word's bits. -/
theorem encodeOfDecodeIsTheWord : Obligations.EncodeOfDecodeIsTheWord := by
  intro c w i hw hdec
  refine ⟨wf_of_decode hdec, fun hgp hinit hcheck => ?_, fun hgp hinit hcheck => ?_⟩
  · rw [encode_of_decode hdec hinit hcheck, packFields_of_gp_one hw hgp]
  · rw [encode_of_decode hdec hinit hcheck, packFields_of_gp_zero hgp]

/-! ### What the decoder depends on -/

/-- The code of a decoded command is the word's `op` (R72). -/
theorem opcode_of_decode {i : Instr} (h : decode c w = .command i) : i.opcode = opField w := by
  obtain ⟨hop, rfl⟩ | ⟨hop, -, rfl⟩ | ⟨hop, -, rfl⟩ | ⟨hop, -, rfl⟩ := decode_command h <;> exact hop.symm

/-- Whether a word decodes to a command depends on its `op` and the build's tier only (R72, R76). -/
theorem exists_command_of_same_op {c' : Config} (hop : opField w = opField w') (ht : c.tier = c'.tier)
    (h : ∃ i, decode c w = .command i) : ∃ i, decode c' w' = .command i := by
  obtain ⟨i, hi⟩ := h
  obtain ⟨h1, -⟩ | ⟨h2, hta, -⟩ | ⟨h3, htb, -⟩ | ⟨h4, htb, -⟩ := decode_command hi
  · exact ⟨_, decode_of_op_one (hop ▸ h1)⟩
  · exact ⟨_, decode_of_op_two (hop ▸ h2) (ht ▸ hta)⟩
  · exact ⟨_, decode_of_op_three (hop ▸ h3) (ht ▸ htb)⟩
  · exact ⟨_, decode_of_op_four (hop ▸ h4) (ht ▸ htb)⟩

/-- Settles O22: a decoded command has the word's code, an illegal one is named by it, and the choice goes by
`exists_command_of_same_op` both ways. -/
theorem decoderIsTotalOnOpAndTier : Obligations.DecoderIsTotalOnOpAndTier := by
  refine ⟨fun c w => ?_, fun c c' w w' hop ht =>
    ⟨exists_command_of_same_op hop ht, exists_command_of_same_op hop.symm ht.symm⟩⟩
  cases hdec : decode c w with
  | command i => exact .inl ⟨i, rfl, opcode_of_decode hdec⟩
  | illegal op => exact .inr (by rw [decode_illegal hdec])

/-- A field depends on the bits up to its highest only. -/
theorem wordField_eq_mod_div (w lo width : Nat) : wordField w lo width = w % 2 ^ (lo + width) / 2 ^ lo := by
  rw [wordField, Nat.pow_add, Nat.mod_mul_right_div_self]

/-- Words that agree below bit `n` agree in every field below it. -/
theorem wordField_congr {n lo width : Nat} (h : w % 2 ^ n = w' % 2 ^ n) (hn : lo + width ≤ n) :
    wordField w lo width = wordField w' lo width := by
  have hdvd : 2 ^ (lo + width) ∣ 2 ^ n := Nat.pow_dvd_pow 2 hn
  rw [wordField_eq_mod_div, wordField_eq_mod_div, ← Nat.mod_mod_of_dvd w hdvd, h, Nat.mod_mod_of_dvd w' hdvd]

/-- The decoder reads a word's code and operands only. -/
theorem decode_congr (hop : opField w = opField w') (hdata : dataField c w = dataField c w')
    (hcount : countField c w = countField c w') (hgamma : gammaOperand c w = gammaOperand c w') :
    decode c w = decode c w' := by
  unfold decode
  rw [hop, hdata, hcount, hgamma]

/-- Settles O24: words that agree below the `gamma` field have the same `op`, `gp`, `data` and `count`, and
`gp = 0` leaves the gamma operand absent. -/
theorem absentGammaIgnoresItsField : Obligations.AbsentGammaIgnoresItsField := by
  refine ⟨fun c w w' hlow hgp => ?_, fun _ _ => gammaOperand_of_gp_one, fun _ _ => gammaOperand_of_gp_zero⟩
  have hop : opField w = opField w' := wordField_congr hlow (by omega)
  have hgps : gpField w = gpField w' := wordField_congr hlow (by omega)
  have hgp' : gpField w' = 0 := hgps ▸ hgp
  have hdata : dataField c w = dataField c w' := wordField_congr hlow (by omega)
  have hcount : countField c w = countField c w' := wordField_congr hlow le_rfl
  exact decode_congr hop hdata hcount ((gammaOperand_of_gp_zero hgp).trans (gammaOperand_of_gp_zero hgp').symm)

end Sys2Proof

namespace Sys2Proof.Machine

open Sys2Proof

variable {c : Config} {line : AsmLine} {w : Nat}

/-- A line assembles to the encoding of its command, whose operands fit (R71, R80). -/
theorem assemble_eq_some (h : assemble c line = some w) :
    line.command.fits c = true ∧ encode c line.command = w := by
  unfold assemble at h
  split at h
  next hfit => exact ⟨hfit, Option.some_inj.1 h⟩
  next => cases h

/-- Settles O27: a line assembles to the encoding of its command, which decodes to it. -/
theorem assembledLinesDecode : Obligations.AssembledLinesDecode := by
  intro c line w hasm hlegal
  obtain ⟨hfit, rfl⟩ := assemble_eq_some hasm
  exact decode_encode hlegal hfit

/-- Settles O25: the decoder evaluated on each word. -/
theorem specWordsDecode : Obligations.SpecWordsDecode := by
  unfold Obligations.SpecWordsDecode
  decide

end Sys2Proof.Machine

/-! ## The timer along a frame (R107 to R111)

`timerCycle_at` says what one cycle does at a position of its frame; here it is iterated from any position. The
engine's slots are timer cycles for as long as the frame lasts, so the same lemmas speak of Tier B. -/

namespace Sys2Proof.Machine

open Sys2Proof

variable {s t : State} {bytes : List Byte} {p k : Nat}

/-! ### Repeated timer cycles -/

section
variable (n : Nat) (s : State)

@[simp] theorem repeatCycle_timerCycle_cfg : (repeatCycle timerCycle n s).cfg = s.cfg :=
  repeatCycle_field _ timerCycle_cfg n s
@[simp] theorem repeatCycle_timerCycle_fault : (repeatCycle timerCycle n s).fault = s.fault :=
  repeatCycle_field _ timerCycle_fault n s
@[simp] theorem repeatCycle_timerCycle_seq : (repeatCycle timerCycle n s).seq = s.seq :=
  repeatCycle_field _ timerCycle_seq n s
@[simp] theorem repeatCycle_timerCycle_wire : (repeatCycle timerCycle n s).wire = s.wire :=
  repeatCycle_field _ timerCycle_wire n s
@[simp] theorem repeatCycle_timerCycle_inputs : (repeatCycle timerCycle n s).inputs = s.inputs :=
  repeatCycle_field _ timerCycle_inputs n s

end

/-- From position `p` of a frame, `k` cycles inside it lead to position `p + k`. -/
theorem repeatCycle_timerCycle_at (hl : legalProfile s.cfg.profile = true) (h : TimerAt bytes p s)
    (hk : p + k ≤ frameCycles s.cfg bytes.length) : TimerAt bytes (p + k) (repeatCycle timerCycle k s) := by
  induction k with
  | zero => exact h
  | succ k ih =>
    rw [repeatCycle_succ_right]
    exact (timerCycle_at (by simpa using hl) (ih (by omega)) (by rw [repeatCycle_timerCycle_cfg]; omega)).1

/-- Before the frame's end, STATE is what it was at its start (R111). -/
theorem repeatCycle_timerCycle_engine (hl : legalProfile s.cfg.profile = true) (h : TimerAt bytes p s)
    (hk : p + k < frameCycles s.cfg bytes.length) : (repeatCycle timerCycle k s).engine = s.engine := by
  induction k with
  | zero => rfl
  | succ k ih =>
    have hat := repeatCycle_timerCycle_at hl h (k := k) (by omega)
    obtain ⟨-, -, hengine⟩ := timerCycle_at (by simpa using hl) hat (by rw [repeatCycle_timerCycle_cfg]; omega)
    rw [repeatCycle_timerCycle_cfg, if_neg (by omega), ih (by omega)] at hengine
    rw [repeatCycle_succ_right, hengine]

/-- The cycle at position `p + k` leaves the line at the closed form's level (R109), and ends the frame if it is
the frame's last (R111). -/
theorem repeatCycle_timerCycle_succ (hl : legalProfile s.cfg.profile = true) (h : TimerAt bytes p s)
    (hk : p + k < frameCycles s.cfg bytes.length) :
    TimerAt bytes (p + k + 1) (repeatCycle timerCycle (k + 1) s) ∧
      (repeatCycle timerCycle (k + 1) s).line = level s.cfg bytes (p + k) ∧
      (repeatCycle timerCycle (k + 1) s).engine =
        if p + k + 1 = frameCycles s.cfg bytes.length then .idle else s.engine := by
  have hat := repeatCycle_timerCycle_at hl h hk.le
  have hcycle := timerCycle_at (by simpa using hl) hat (by simpa using hk)
  rw [← repeatCycle_succ_right timerCycle] at hcycle
  rwa [repeatCycle_timerCycle_cfg, repeatCycle_timerCycle_engine hl h hk] at hcycle

/-- A frame with a cycle has a byte. -/
theorem ne_zero_of_lt_frameCycles {c : Config} {n : Nat} (hk : k < frameCycles c n) : n ≠ 0 := by
  rintro rfl
  simp [frameCycles] at hk

/-- Settles O39: the timer starts its frame at position 0 and stands at position `k + 1` after `k + 1` cycles. -/
theorem timerEmitsTheWaveform : Obligations.TimerEmitsTheWaveform := by
  intro s bytes k hl hk
  have hstart := timerAt_startFrame (mt List.length_eq_zero_iff.2 (ne_zero_of_lt_frameCycles hk)) s
  obtain ⟨hat, hline, -⟩ := repeatCycle_timerCycle_succ (s := startFrame bytes s) hl hstart
    (k := k) (by simpa using hk)
  rw [Nat.zero_add] at hat hline
  have hcfg : (repeatCycle timerCycle (k + 1) (startFrame bytes s)).cfg = s.cfg := by simp
  exact ⟨hline, hcfg ▸ hat.cyc, hcfg ▸ hat.bitIdx, hcfg ▸ hat.byteIdx⟩

/-! ### The engine's step -/

theorem engineSlot_of_enabled (h : s.engineEnabled = true) : engineSlot s = timerCycle s := by
  simp [engineSlot, h]

theorem engineSlot_of_not_enabled (h : s.engineEnabled = false) : engineSlot s = s := by
  simp [engineSlot, h]

/-- The engine's step writes STATE, LINE and the engine's position and shift registers only (R152). -/
theorem engineSlot_frame (s : State) : engineSlot s = { s with
    engine := (engineSlot s).engine, line := (engineSlot s).line
    byteIdx := (engineSlot s).byteIdx, bitIdx := (engineSlot s).bitIdx
    cyc := (engineSlot s).cyc, shift := (engineSlot s).shift } := by
  obtain ⟨-, h⟩ | ⟨-, h⟩ := engineSlot_cases s
  · rw [h]; exact timerCycle_frame s
  · rw [h]

section
variable (s : State)

@[simp] theorem engineSlot_dataMem : (engineSlot s).dataMem = s.dataMem := by rw [engineSlot_frame]
@[simp] theorem engineSlot_constMem : (engineSlot s).constMem = s.constMem := by rw [engineSlot_frame]
@[simp] theorem engineSlot_initd : (engineSlot s).initd = s.initd := by rw [engineSlot_frame]
@[simp] theorem engineSlot_wire : (engineSlot s).wire = s.wire := by rw [engineSlot_frame]
@[simp] theorem engineSlot_inputs : (engineSlot s).inputs = s.inputs := by rw [engineSlot_frame]

end

/-- The timer reads no memory (R152). -/
theorem timerCycle_with_memories (s : State) (dataMem constMem : Memory) :
    timerCycle { s with dataMem := dataMem, constMem := constMem } =
      { timerCycle s with dataMem := dataMem, constMem := constMem } := by
  simp only [timerCycle, advance, nextByte, endFrame, State.currentBit]
  repeat' split
  all_goals rfl

/-- The engine's step reads no memory (R152). -/
theorem engineSlot_with_memories (s : State) (dataMem constMem : Memory) :
    engineSlot { s with dataMem := dataMem, constMem := constMem } =
      { engineSlot s with dataMem := dataMem, constMem := constMem } := by
  have hsame : State.engineEnabled { s with dataMem := dataMem, constMem := constMem } = s.engineEnabled := rfl
  unfold engineSlot
  rw [hsame]
  split
  · exact timerCycle_with_memories s dataMem constMem
  · rfl

/-- Settles O38: the engine's condition, its frame, and that neither the condition nor the timer reads memory. -/
theorem engineStepReadsNoMemory : Obligations.EngineStepReadsNoMemory :=
  ⟨fun _ ht he hb hf => engineSlot_of_enabled (engineEnabled_iff.2 ⟨ht, he, hb, hf⟩),
    fun _ hnot => engineSlot_of_not_enabled (Bool.eq_false_iff.2 fun hen => hnot (engineEnabled_iff.1 hen)),
    engineSlot_frame, engineSlot_with_memories⟩

/-- Inside its frame the engine of a transfer is enabled. -/
theorem engineEnabled_of_timerAt (ht : s.cfg.tier = .b) (hf : s.fault = none) (he : s.engine = .transferring)
    (hn : s.xferCount = bytes.length) (h : TimerAt bytes p s) (hp : p < frameCycles s.cfg bytes.length) :
    s.engineEnabled = true := by
  have hbyte : s.byteIdx < s.xferCount := by
    rw [h.byteIdx, hn]; exact div_div_lt_length hp
  exact engineEnabled_iff.2 ⟨ht, he, hbyte, hf⟩

/-- For as long as the frame lasts, the engine's slots are timer cycles (R152). -/
theorem repeatCycle_engineSlot_eq (hl : legalProfile s.cfg.profile = true) (ht : s.cfg.tier = .b)
    (hf : s.fault = none) (he : s.engine = .transferring) (hn : s.xferCount = bytes.length)
    (h : TimerAt bytes p s) (hk : p + k ≤ frameCycles s.cfg bytes.length) :
    repeatCycle engineSlot k s = repeatCycle timerCycle k s := by
  induction k with
  | zero => rfl
  | succ k ih =>
    have hat := repeatCycle_timerCycle_at hl h (k := k) (by omega)
    have hengine := repeatCycle_timerCycle_engine hl h (k := k) (by omega)
    have hcount : (repeatCycle timerCycle k s).xferCount = s.xferCount :=
      repeatCycle_field _ timerCycle_xferCount k s
    rw [repeatCycle_succ_right, repeatCycle_succ_right, ih (by omega)]
    exact engineSlot_of_enabled (engineEnabled_of_timerAt (by simpa using ht) (by simpa using hf)
      (hengine.trans he) (hcount.trans hn) hat (by rw [repeatCycle_timerCycle_cfg]; omega))

/-- In a state that meets the invariant the engine's step leaves the line at the level of its frame position, and
stands one position on (R106, R109). -/
theorem engineSlot_at (hi : s.Inv) (hen : s.engineEnabled = true) :
    TimerAt s.seq (framePosition s + 1) (engineSlot s) ∧
      (engineSlot s).line = level s.cfg s.seq (framePosition s) := by
  obtain ⟨-, he, -, -⟩ := engineEnabled_iff.1 hen
  obtain ⟨hat, hlt⟩ := hi.timerAt he
  rw [← hi.seqLength] at hlt
  obtain ⟨hnext, hline, -⟩ := timerCycle_at hi.legal hat hlt
  rw [engineSlot_of_enabled hen]
  exact ⟨hnext, hline⟩

/-! ### Steps that are the engine's -/

theorem step_of_no_event (hl : legalProfile s.cfg.profile = true) (hf : s.fault = none)
    (hin : s.inputs = []) : step s = .next (engineSlot s) := by
  rw [step_of_legal hl, agentStep, hin]
  exact running_of_none hf

theorem step_of_engine {rest : List Event} (hl : legalProfile s.cfg.profile = true) (hf : s.fault = none)
    (hin : s.inputs = .engine :: rest) : step s = .next (engineSlot (takeEvent rest s)) := by
  rw [step_of_legal hl, agentStep, hin]
  exact running_of_none hf

/-- Settles O52: the step is the engine's on a state that meets the invariant (`engineSlot_at`), and taking an
event off the schedule moves neither the line nor the frame position. -/
theorem engineStepFollowsTheWaveform : Obligations.EngineStepFollowsTheWaveform := by
  intro s t hi hen hin hstep
  obtain ⟨-, -, -, hf⟩ := engineEnabled_iff.1 hen
  obtain hin | ⟨rest, hin⟩ := hin
  · rw [step_of_no_event hi.legal hf hin] at hstep
    cases hstep
    obtain ⟨hat, hline⟩ := engineSlot_at hi hen
    exact ⟨hline, hat.framePosition, hat.seq⟩
  · rw [step_of_engine hi.legal hf hin] at hstep
    cases hstep
    obtain ⟨hat, hline⟩ := engineSlot_at (hi.takeEvent rest) hen
    exact ⟨hline, hat.framePosition, hat.seq⟩

/-! ### Both tiers -/

/-- The cycle at position `k` of a blocking emission leaves the line at the closed form's level. -/
theorem repeatCycle_syncCycle_line {data count : Nat} {gamma : Option Nat}
    (hl : legalProfile s.cfg.profile = true) (hk : k < frameCycles s.cfg count) :
    (repeatCycle syncCycle (k + 1) (syncStart data count gamma s)).line =
      level s.cfg (frameBytes s gamma data count) k := by
  have hn : count ≠ 0 := ne_zero_of_lt_frameCycles hk
  have hat := repeatCycle_syncCycle_at (k := k) (by simpa using hl)
    (timerAt_syncStart (s := s) (addr := data) (gamma := gamma) hn) (by simpa using hk.le)
  obtain ⟨-, hline, -⟩ := syncCycle_at (by simpa using hl) hat (by simpa using hk)
  rw [repeatCycle_succ_right, hline, repeatCycle_syncCycle_cfg, syncStart_cfg]

/-- Step `k` of an armed engine leaves the line at the closed form's level. -/
theorem repeatCycle_engineSlot_line {data count : Nat} {gamma : Option Nat}
    (hl : legalProfile s.cfg.profile = true) (ht : s.cfg.tier = .b) (hf : s.fault = none)
    (hk : k < frameCycles s.cfg count) :
    (repeatCycle engineSlot (k + 1) (armTransfer data count gamma s)).line =
      level s.cfg (frameBytes s gamma data count) k := by
  have hn : count ≠ 0 := ne_zero_of_lt_frameCycles hk
  have hlen : (frameBytes s gamma data count).length = count := length_frameBytes ..
  have harmed := timerAt_armTransfer (s := s) (addr := data) (gamma := gamma) hn
  have hslots := repeatCycle_engineSlot_eq (s := armTransfer data count gamma s) (k := k + 1) hl ht hf rfl
    hlen.symm harmed (by rw [hlen, armTransfer_cfg]; omega)
  obtain ⟨-, hline, -⟩ := repeatCycle_timerCycle_succ (s := armTransfer data count gamma s) (k := k) hl
    harmed (by rw [hlen, armTransfer_cfg]; omega)
  rw [hslots, hline, armTransfer_cfg, Nat.zero_add]

/-- Settles O40: each tier's emission against the closed form of the same bytes. -/
theorem bothTiersEmitTheSameWaveform : Obligations.BothTiersEmitTheSameWaveform :=
  fun _ _ _ _ _ hl hk =>
    ⟨repeatCycle_syncCycle_line hl hk, fun ht hf => repeatCycle_engineSlot_line hl ht hf hk⟩

/-- Settles O10: `repeatCycle_syncCycle_prefetch`, and the timer's byte index after `k` cycles. -/
theorem prefetchRunsOneByteAhead : Obligations.PrefetchRunsOneByteAhead := by
  intro s data count base k hl hk
  have hn : count ≠ 0 := ne_zero_of_lt_frameCycles hk
  have hat := repeatCycle_syncCycle_at (k := k) (by simpa using hl)
    (timerAt_syncStart (s := s) (addr := data) (gamma := some base) hn) (by simpa using hk.le)
  have hbyte := hat.byteIdx
  rw [repeatCycle_syncCycle_cfg, syncStart_cfg, Nat.div_div_eq_div_mul, Nat.mul_comm] at hbyte
  have hprefetch := repeatCycle_syncCycle_prefetch (d := data) (b := base) hl hn hk
  rw [Nat.div_div_eq_div_mul, Nat.mul_comm] at hprefetch
  exact ⟨hbyte, hprefetch⟩

end Sys2Proof.Machine

/-! ## The commands' whole effects (R130 to R137, R150, R156)

The equation of each command whose checks pass, and what a frame's bytes and reads are made of. -/

namespace Sys2Proof.Machine

open Sys2Proof

variable {s t : State} {data count : Nat} {gamma : Option Nat}

/-! ### INIT and CHECK_STATUS -/

/-- INIT outside a Tier B transfer lowers the line and initializes the block (R130). -/
theorem execWsInit_of_not_busy (hf : s.fault = none) (hb : ¬ (s.cfg.tier = .b ∧ s.engine = .transferring)) :
    execWsInit s = .next { s with line := false, initd := true, reply := none } := by
  rw [execWsInit, running_of_none hf, if_neg hb]
  rfl

/-- Settles O1: the decoder's equation, the parsed line, and INIT's two equations. -/
theorem initFollowsItsRule : Obligations.InitFollowsItsRule :=
  ⟨fun _ _ => decode_of_op_one, by decide, fun _ => execWsInit_of_transferring,
    fun _ => execWsInit_of_not_busy⟩

/-- Settles O2: the state after INIT already has the values that INIT writes. -/
theorem initIsIdempotent : Obligations.InitIsIdempotent :=
  fun _ hf hb => ⟨_, execWsInit_of_not_busy hf hb, hf, execWsInit_of_not_busy hf hb⟩

/-- Settles O5: Busy is decided before the region check. -/
theorem busyOutputChangesNothing : Obligations.BusyOutputChangesNothing :=
  fun _ _ _ _ hf ht hd hn he => execWsOuta_of_transferring hf ht hd hn he

/-- Settles O6: the reply is `engineStatus` of STATE. -/
theorem checkStatusReportsEngine : Obligations.CheckStatusReportsEngine := by
  intro s hf ht hd
  have hcheck := execWsCheck_of_initd hf ht hd
  refine ⟨fun he => ?_, fun he => ?_⟩ <;> rw [he] at hcheck <;> exact hcheck

/-! ### The bytes and reads of a frame -/

/-- Settles O7: `length_frameBytes` and `getElem?_frameBytes`, with the gamma stage by cases. -/
theorem frameBytesAreGammaOfBuffer : Obligations.FrameBytesAreGammaOfBuffer := by
  refine fun s gamma data count => ⟨length_frameBytes .., fun i hi => ?_⟩
  rw [getElem?_frameBytes hi]
  cases gamma with
  | none => rfl
  | some base => rfl

/-- An identity table transmits the buffer as it is (R126). -/
theorem frameBytes_of_identity {base : Nat}
    (h : ∀ v : Byte, s.readByte s.cfg.gammaSpace (base + v.toNat) = v) (a n : Nat) :
    frameBytes s (some base) a n = frameBytes s none a n := by
  induction n generalizing a with
  | zero => rfl
  | succ n ih => rw [frameBytes_succ, frameBytes_succ, ih, gammaLookup_some, h, gammaLookup_none]

/-- A constant table transmits its one value, whatever the buffer holds (R126). -/
theorem frameBytes_of_constant {base : Nat} {u : Byte}
    (h : ∀ v : Byte, s.readByte s.cfg.gammaSpace (base + v.toNat) = u) (a n : Nat) :
    frameBytes s (some base) a n = List.replicate n u := by
  induction n generalizing a with
  | zero => rfl
  | succ n ih => rw [frameBytes_succ, ih, gammaLookup_some, h, List.replicate_succ]

/-- Settles O8: the two laws, byte by byte. -/
theorem gammaIdentityAndConstantTables : Obligations.GammaIdentityAndConstantTables :=
  ⟨fun _ _ data count h => frameBytes_of_identity h data count,
    fun _ _ data count h => frameBytes_of_constant h data count⟩

/-- The first byte of a frame that has one. -/
theorem headD_frameBytes (hn : count ≠ 0) :
    (frameBytes s gamma data count).headD 0 = gammaLookup s gamma (s.readByte .data data) := by
  obtain ⟨n, rfl⟩ := Nat.exists_eq_succ_of_ne_zero hn
  rfl

theorem gammaReads_eq_map (v : Byte) : gammaReads s gamma v =
    gamma.toList.map fun base => { space := s.cfg.gammaSpace, addr := base + v.toNat } := by
  cases gamma with
  | none => rfl
  | some base => rfl

/-- The reads of a frame are, for each offset in order, the buffer byte's and its table entry's (R60). -/
theorem frameReads_eq_flatMap (s : State) (gamma : Option Nat) (a n : Nat) :
    frameReads s gamma a n = (List.range n).flatMap fun i =>
      { space := .data, addr := a + i } :: gamma.toList.map fun base =>
        { space := s.cfg.gammaSpace, addr := base + (s.readByte .data (a + i)).toNat } := by
  induction n generalizing a with
  | zero => rfl
  | succ n ih =>
    have hshift (i : Nat) : a + 1 + i = a + (i + 1) := by omega
    rw [frameReads, ih, gammaReads_eq_map, List.range_succ_eq_map, List.flatMap_cons, List.flatMap_map]
    simp only [hshift, Nat.add_zero, List.cons_append]

/-! ### The output commands -/

/-- OUTPUT_SYNC whose buffer and table are readable runs to completion (R132). -/
theorem execWsOut_of_readable (hf : s.fault = none) (ht : s.cfg.tier = .a) (hd : s.initd = true)
    (hn : count ≠ 0) (hbuf : s.bufferReadable data count gamma) (htab : s.tableReadable gamma) :
    execWsOut data count gamma s = .next (withoutReply (emitBlocking data count gamma s)) := by
  have hregion : regionFault s data (tierASpan count gamma) gamma = none :=
    regionFault_eq_none.2 ⟨hbuf.readable_of_lt_span ht, tableFault_eq_none.2 htab⟩
  simp [execWsOut, hf, ht, hd, hn, hregion]

/-- Settles O3: the checks pass, and `emitBlocking_eq` is the effect. -/
theorem outputSyncEmitsOneFrame : Obligations.OutputSyncEmitsOneFrame := by
  intro s data count gamma hf hl ht hd hn hbuf htab
  rw [exec_wsOut, execWsOut_of_readable hf ht hd hn hbuf htab, emitBlocking_eq hl hn]

/-- Settles O4: the checks pass, and `armTransfer_eq` is the effect. -/
theorem outputAsyncArmsTransfer : Obligations.OutputAsyncArmsTransfer := by
  intro s data count gamma hf ht hd he hn hbuf htab
  rw [exec_wsOuta, execWsOuta_of_idle hf ht hd hn hbuf htab he, armTransfer_eq, headD_frameBytes hn]
  rfl

/-- Settles O11: the reads that each output appends are `frameReads`, in Tier A with the trailing byte's; Busy
appends none. -/
theorem outputsReadExactlyTheirBytes : Obligations.OutputsReadExactlyTheirBytes := by
  refine ⟨fun s data count gamma hf hl hd hn hbuf htab => ?_,
    fun s data count gamma hf hd hn ht he => ⟨_, execWsOuta_of_transferring hf ht hd hn he, rfl⟩⟩
  rw [← frameReads_eq_flatMap]
  refine ⟨fun ht hgamma => ⟨_, execWsOut_of_readable hf ht hd hn hbuf htab, ?_⟩,
    fun ht hgamma => ⟨_, execWsOut_of_readable hf ht hd hn hbuf htab, ?_⟩,
    fun ht he => ⟨_, execWsOuta_of_idle hf ht hd hn hbuf htab he, rfl⟩⟩
  · subst hgamma
    rw [emitBlocking_eq hl hn]
    exact congrArg (s.reads ++ ·) (List.append_nil _)
  · obtain ⟨base, rfl⟩ := Option.ne_none_iff_exists'.1 hgamma
    rw [emitBlocking_eq hl hn]
    rfl

/-! ### The byte past the buffer -/

theorem readByte_data_storeData_same (hwf : Memory.wf s.dataMem = true) (a : Nat) (v : Byte) :
    (storeData a v s).readByte .data a = v :=
  Memory.read_write_same a v hwf

theorem readByte_data_storeData_other (hwf : Memory.wf s.dataMem = true) {a b : Nat} (v : Byte) (h : b ≠ a) :
    (storeData a v s).readByte .data b = s.readByte .data b :=
  Memory.read_write_other v hwf h

/-- A byte outside a table may be stored to without changing the table's entries. -/
theorem readByte_table_storeData (hwf : Memory.wf s.dataMem = true) {a base : Nat} (v : Byte)
    (h : s.cfg.gammaSpace = .const ∨ a < base ∨ base + gammaEntries ≤ a) {k : Nat} (hk : k < gammaEntries) :
    (storeData a v s).readByte s.cfg.gammaSpace (base + k) = s.readByte s.cfg.gammaSpace (base + k) := by
  cases hspace : s.cfg.gammaSpace with
  | const => rfl
  | data =>
    rw [hspace] at h
    obtain h | h := h
    · cases h
    · exact readByte_data_storeData_other hwf v (by omega)

/-- Settles O9: a store past the buffer and outside the table changes no byte of the frame and no read, so the two
runs differ in what PREFETCH takes from that byte. -/
theorem trailingByteIsNeverTransmitted : Obligations.TrailingByteIsNeverTransmitted := by
  intro s data count base v hf hl ht hd hn hbuf htab hwf hout
  have hbytes : ∀ i, i < count →
      (storeData (data + count) v s).readByte .data (data + i) = s.readByte .data (data + i) :=
    fun i hi => readByte_data_storeData_other hwf v (by omega)
  have htable : ∀ b, some base = some b → ∀ k, k < gammaEntries →
      (storeData (data + count) v s).readByte s.cfg.gammaSpace (b + k) =
        s.readByte s.cfg.gammaSpace (b + k) := by
    rintro b ⟨⟩ k hk
    exact readByte_table_storeData hwf v hout hk
  have hframe : frameBytes (storeData (data + count) v s) (some base) data count =
      frameBytes s (some base) data count := frameBytes_congr_of_bytes rfl hbytes htable
  have hreads : frameReads (storeData (data + count) v s) (some base) data count =
      frameReads s (some base) data count := frameReads_congr_of_bytes rfl hbytes
  have hstored := execWsOut_of_readable (s := storeData (data + count) v s) hf ht hd hn hbuf htab
  refine ⟨_, execWsOut_of_readable hf ht hd hn hbuf htab, hstored.trans ?_⟩
  rw [emitBlocking_eq hl hn, emitBlocking_eq (s := storeData (data + count) v s) hl hn, hframe, hreads,
    readByte_data_storeData_same hwf]
  rfl

/-! ### Faults -/

/-- Settles O17: every command is `running`. -/
theorem noCommandLeavesFault : Obligations.NoCommandLeavesFault := by
  intro i s f hf
  cases i with
  | wsInit => exact running_of_some hf
  | wsOut data count gamma => exact running_of_some hf
  | wsOuta data count gamma => exact running_of_some hf
  | wsCheck => exact running_of_some hf

/-- Settles O16: `exec_next_of_fault`, with the fault that was recorded named. -/
theorem faultingCommandsWriteOnlyFault : Obligations.FaultingCommandsWriteOnlyFault := by
  intro i s t f h ht
  rw [← ht]
  exact exec_next_of_fault h (by simp [ht])

/-- The region check on a buffer that runs past the end of DATA (R59). -/
theorem regionFault_of_buffer_past_end {a span : Nat} (ha : a ≤ spaceSize s.cfg)
    (hall : ∀ b, a ≤ b → b < spaceSize s.cfg → s.readable .data b = true)
    (hspan : spaceSize s.cfg < a + span) :
    regionFault s a span gamma = some (.unreadable .data (spaceSize s.cfg)) := by
  obtain ⟨k, hk⟩ := Nat.exists_eq_add_of_le ha
  rw [hk] at hspan
  have hregion := regionFault_of_buffer (s := s) (a := a) (span := span) (k := k) (gamma := gamma) (by omega)
    (fun i hi => hall _ (by omega) (by omega)) (readable_eq_false_of_le hk.le)
  rwa [← hk] at hregion

/-- The region check on a table that runs past the end of GAMMA_SPACE, behind a readable buffer (R59, R122). -/
theorem regionFault_of_table_past_end {a span base : Nat}
    (hbuf : ∀ i, i < span → s.readable .data (a + i) = true) (hbase : base ≤ spaceSize s.cfg)
    (hend : spaceSize s.cfg < base + gammaEntries)
    (hall : ∀ b, base ≤ b → b < spaceSize s.cfg → s.readable s.cfg.gammaSpace b = true) :
    regionFault s a span (some base) = some (.unreadable s.cfg.gammaSpace (spaceSize s.cfg)) := by
  obtain ⟨k, hk⟩ := Nat.exists_eq_add_of_le hbase
  rw [hk] at hend
  have hregion := regionFault_of_table (k := k) hbuf (by omega)
    (fun v hv => hall _ (by omega) (by omega)) (readable_eq_false_of_le hk.le)
  rwa [← hk] at hregion

/-- Settles O18: the region check finds the first address past the end, over the span of each tier. -/
theorem noAddressWraps : Obligations.NoAddressWraps := by
  intro s data count gamma hf hd hn hdata hall
  refine ⟨fun ht hgamma hend => ?bufferA, fun ht hgamma hend => ?trailingA, fun ht he hend => ?bufferB,
    fun base hgamma hbase hend htab => ⟨fun ht hin => ?tableA, fun ht he hin => ?tableB⟩⟩
  case bufferA =>
    subst hgamma
    exact execWsOut_of_regionFault hf ht hd hn (regionFault_of_buffer_past_end hdata hall hend)
  case trailingA =>
    obtain ⟨base, rfl⟩ := Option.ne_none_iff_exists'.1 hgamma
    exact execWsOut_of_regionFault hf ht hd hn (regionFault_of_buffer_past_end hdata hall hend)
  case bufferB =>
    exact execWsOuta_of_regionFault hf ht hd hn he (regionFault_of_buffer_past_end hdata hall hend)
  case tableA =>
    subst hgamma
    have hbuf : ∀ i, i < tierASpan count (some base) → s.readable .data (data + i) = true :=
      fun i hi => hall _ (by omega) (by simp only [tierASpan] at hi; omega)
    exact execWsOut_of_regionFault hf ht hd hn (regionFault_of_table_past_end hbuf hbase hend htab)
  case tableB =>
    subst hgamma
    have hbuf : ∀ i, i < count → s.readable .data (data + i) = true :=
      fun i hi => hall _ (by omega) (by omega)
    exact execWsOuta_of_regionFault hf ht hd hn he (regionFault_of_table_past_end hbuf hbase hend htab)

end Sys2Proof.Machine

/-! ## What a step leaves unchanged

The frame of each command, then of each host step that runs no command, then of the machine's step: either it runs
a command, or it leaves alone what only commands and resets write. -/

namespace Sys2Proof.Machine

open Sys2Proof

variable {s t : State}

/-! ### The frames of the commands -/

section
variable (addr n : Nat) (gamma : Option Nat) (s : State)

@[simp] theorem emitBlocking_holes : (emitBlocking addr n gamma s).holes = s.holes := by
  simp [emitBlocking, syncStart]
@[simp] theorem emitBlocking_dataMem : (emitBlocking addr n gamma s).dataMem = s.dataMem := by
  simp [emitBlocking, syncStart]
@[simp] theorem emitBlocking_constMem : (emitBlocking addr n gamma s).constMem = s.constMem := by
  simp [emitBlocking, syncStart]
@[simp] theorem emitBlocking_initd : (emitBlocking addr n gamma s).initd = s.initd := by
  simp [emitBlocking, syncStart]
@[simp] theorem emitBlocking_wire : (emitBlocking addr n gamma s).wire =
    s.wire ++ [.gap, .frame (frameBytes s gamma addr n)] := by
  simp [emitBlocking, syncStart]
@[simp] theorem emitBlocking_inputs : (emitBlocking addr n gamma s).inputs = s.inputs := by
  simp [emitBlocking, syncStart]
@[simp] theorem emitBlocking_draws : (emitBlocking addr n gamma s).draws = s.draws := by
  simp [emitBlocking, syncStart]

@[simp] theorem armTransfer_holes : (armTransfer addr n gamma s).holes = s.holes := by simp [armTransfer]
@[simp] theorem armTransfer_dataMem : (armTransfer addr n gamma s).dataMem = s.dataMem := by simp [armTransfer]
@[simp] theorem armTransfer_constMem : (armTransfer addr n gamma s).constMem = s.constMem := by simp [armTransfer]
@[simp] theorem armTransfer_initd : (armTransfer addr n gamma s).initd = s.initd := by simp [armTransfer]
@[simp] theorem armTransfer_line : (armTransfer addr n gamma s).line = s.line := by simp [armTransfer]
@[simp] theorem armTransfer_prefetch : (armTransfer addr n gamma s).prefetch = s.prefetch := by simp [armTransfer]
@[simp] theorem armTransfer_inputs : (armTransfer addr n gamma s).inputs = s.inputs := by simp [armTransfer]
@[simp] theorem armTransfer_draws : (armTransfer addr n gamma s).draws = s.draws := by simp [armTransfer]
@[simp] theorem armTransfer_wire : (armTransfer addr n gamma s).wire =
    s.wire ++ [.gap, .frame (frameBytes s gamma addr n)] := by simp [armTransfer]

end

/-- What no command writes, whether it faults or takes effect. -/
theorem exec_next_frame {i : Instr} (h : exec i s = .next t) :
    t.cfg = s.cfg ∧ t.holes = s.holes ∧ t.dataMem = s.dataMem ∧ t.constMem = s.constMem ∧
      t.inputs = s.inputs ∧ t.draws = s.draws := by
  cases i with
  | wsInit =>
    obtain ⟨-, ⟨-, -, rfl⟩ | ⟨-, rfl⟩⟩ := execWsInit_next h <;> exact ⟨rfl, rfl, rfl, rfl, rfl, rfl⟩
  | wsOut data count gamma =>
    obtain ⟨-, ⟨f, rfl⟩ | ⟨-, -, -, -, rfl⟩⟩ := execWsOut_next h
    · exact ⟨rfl, rfl, rfl, rfl, rfl, rfl⟩
    · simp
  | wsOuta data count gamma =>
    obtain ⟨-, ⟨f, rfl⟩ | ⟨-, -, -, -, rfl⟩ | ⟨-, -, -, -, -, rfl⟩⟩ := execWsOuta_next h
    · exact ⟨rfl, rfl, rfl, rfl, rfl, rfl⟩
    · exact ⟨rfl, rfl, rfl, rfl, rfl, rfl⟩
    · simp
  | wsCheck =>
    obtain ⟨-, ⟨f, rfl⟩ | ⟨-, -, rfl⟩⟩ := execWsCheck_next h <;> exact ⟨rfl, rfl, rfl, rfl, rfl, rfl⟩

/-- INITD is INIT's to write (R23). -/
theorem exec_next_initd {i : Instr} (h : exec i s = .next t) :
    t.initd = s.initd ∨ (i = .wsInit ∧ t.initd = true) := by
  cases i with
  | wsInit =>
    obtain ⟨-, ⟨-, -, rfl⟩ | ⟨-, rfl⟩⟩ := execWsInit_next h
    · exact .inl rfl
    · exact .inr ⟨rfl, rfl⟩
  | wsOut data count gamma =>
    obtain ⟨-, ⟨f, rfl⟩ | ⟨-, -, -, -, rfl⟩⟩ := execWsOut_next h
    · exact .inl rfl
    · exact .inl (emitBlocking_initd data count gamma s)
  | wsOuta data count gamma =>
    obtain ⟨-, ⟨f, rfl⟩ | ⟨-, -, -, -, rfl⟩ | ⟨-, -, -, -, -, rfl⟩⟩ := execWsOuta_next h
    · exact .inl rfl
    · exact .inl rfl
    · exact .inl (armTransfer_initd data count gamma s)
  | wsCheck =>
    obtain ⟨-, ⟨f, rfl⟩ | ⟨-, -, rfl⟩⟩ := execWsCheck_next h <;> exact .inl rfl

/-- WIRE is the output commands' to write, and each appends a gap and its frame (R31). -/
theorem exec_next_wire {i : Instr} (h : exec i s = .next t) :
    t.wire = s.wire ∨ ∃ data count gamma, (i = .wsOut data count gamma ∨ i = .wsOuta data count gamma) ∧
      t.wire = s.wire ++ [.gap, .frame (frameBytes s gamma data count)] := by
  cases i with
  | wsInit =>
    obtain ⟨-, ⟨-, -, rfl⟩ | ⟨-, rfl⟩⟩ := execWsInit_next h <;> exact .inl rfl
  | wsOut data count gamma =>
    obtain ⟨-, ⟨f, rfl⟩ | ⟨-, -, -, -, rfl⟩⟩ := execWsOut_next h
    · exact .inl rfl
    · exact .inr ⟨data, count, gamma, .inl rfl, emitBlocking_wire data count gamma s⟩
  | wsOuta data count gamma =>
    obtain ⟨-, ⟨f, rfl⟩ | ⟨-, -, -, -, rfl⟩ | ⟨-, -, -, -, -, rfl⟩⟩ := execWsOuta_next h
    · exact .inl rfl
    · exact .inl rfl
    · exact .inr ⟨data, count, gamma, .inr rfl, armTransfer_wire data count gamma s⟩
  | wsCheck =>
    obtain ⟨-, ⟨f, rfl⟩ | ⟨-, -, rfl⟩⟩ := execWsCheck_next h <;> exact .inl rfl

/-- OUTPUT_ASYNC leaves LINE and PREFETCH to the engine and to Tier A (R150, R151). -/
theorem execWsOuta_next_line_prefetch {data count : Nat} {gamma : Option Nat}
    (h : execWsOuta data count gamma s = .next t) : t.line = s.line ∧ t.prefetch = s.prefetch := by
  obtain ⟨-, ⟨f, rfl⟩ | ⟨-, -, -, -, rfl⟩ | ⟨-, -, -, -, -, rfl⟩⟩ := execWsOuta_next h
  · exact ⟨rfl, rfl⟩
  · exact ⟨rfl, rfl⟩
  · exact ⟨armTransfer_line data count gamma s, armTransfer_prefetch data count gamma s⟩

/-- INIT writes LINE, INITD, FAULT and the reply only (R130). -/
theorem execWsInit_next_frame (h : execWsInit s = .next t) :
    t = { s with line := t.line, initd := t.initd, fault := t.fault, reply := t.reply } := by
  obtain ⟨-, ⟨-, -, rfl⟩ | ⟨-, rfl⟩⟩ := execWsInit_next h <;> rfl

/-- CHECK_STATUS writes FAULT and the reply only (R156). -/
theorem execWsCheck_next_frame (h : execWsCheck s = .next t) :
    t = { s with fault := t.fault, reply := t.reply } := by
  obtain ⟨-, ⟨f, rfl⟩ | ⟨-, -, rfl⟩⟩ := execWsCheck_next h <;> rfl

/-- Settles O13: the frames above; a byte reads as before because both memories are as before. -/
theorem commandFrames : Obligations.CommandFrames := by
  intro i s t h
  obtain ⟨hcfg, hholes, hdata, hconst, hinputs, hdraws⟩ := exec_next_frame h
  refine ⟨readByte_congr hdata hconst, hcfg, hholes, hinputs, hdraws, fun hne => ?_, ?_, ?_, ?_⟩
  · obtain hsame | ⟨rfl, -⟩ := exec_next_initd h
    · exact hsame
    · exact absurd rfl hne
  · rintro data count gamma rfl
    exact execWsOuta_next_line_prefetch h
  · rintro rfl
    exact execWsInit_next_frame h
  · rintro rfl
    exact execWsCheck_next_frame h

/-! ### The frames of host steps and of steps -/

/-- A host step runs a command, or writes no more than FAULT, DATA, the reply and the draws. -/
theorem hostStep_next_cases {a : HostAction} (h : hostStep a s = .next t) :
    (∃ w i, a = .command w ∧ decode s.cfg w = .command i ∧ exec i (withoutReply s) = .next t) ∨
      t = { s with fault := t.fault, dataMem := t.dataMem, reply := t.reply, draws := t.draws } := by
  cases a with
  | command w =>
    obtain ⟨i, hdec, hexec⟩ | ⟨op, -, rfl⟩ := hostCommand_next h
    · exact .inl ⟨w, i, rfl, hdec, hexec⟩
    · exact .inr (by rw [raise_eq_with_fault]; rfl)
  | write space addr v =>
    obtain ⟨-, -, ⟨-, rfl⟩ | ⟨-, rfl⟩⟩ := hostWrite_next h
    · exact .inr (by rw [raise_eq_with_fault]; rfl)
    · exact .inr rfl
  | read space addr =>
    obtain ⟨-, ⟨-, rfl⟩ | ⟨-, rfl⟩⟩ := hostRead_next h <;> exact .inr rfl

/-- A step runs a command, or is a reset, or leaves INITD and WIRE as they were. -/
theorem step_next_cases (h : step s = .next t) :
    (∃ w rest i, s.inputs = .host (.command w) :: rest ∧ decode s.cfg w = .command i ∧
        exec i (withoutReply (takeEvent rest s)) = .next t) ∨
      (∃ rest, s.inputs = .reset :: rest ∧ t = resetBlock (takeEvent rest s)) ∨
      (t.initd = s.initd ∧ t.wire = s.wire) := by
  obtain ⟨-, ⟨-, -, rfl⟩ | ⟨rest, -, -, rfl⟩ | ⟨a, rest, hin, -, hhost⟩ | ⟨rest, hin, rfl⟩⟩ := step_next h
  · exact .inr (.inr ⟨engineSlot_initd s, engineSlot_wire s⟩)
  · exact .inr (.inr ⟨engineSlot_initd (takeEvent rest s), engineSlot_wire (takeEvent rest s)⟩)
  · obtain ⟨w, i, rfl, hdec, hexec⟩ | hframe := hostStep_next_cases hhost
    · exact .inl ⟨w, rest, i, hin, hdec, hexec⟩
    · rw [hframe]; exact .inr (.inr ⟨rfl, rfl⟩)
  · exact .inr (.inl ⟨rest, hin, rfl⟩)

/-- Settles O35: a step that is no reset runs a command, whose WIRE is `exec_next_wire`'s, or leaves WIRE. -/
theorem wireTraceOnlyGrows : Obligations.WireTraceOnlyGrows := by
  intro s t hreset h
  obtain ⟨w, rest, i, hin, hdec, hexec⟩ | ⟨rest, hin, -⟩ | ⟨-, hwire⟩ := step_next_cases h
  · obtain hwire | ⟨data, count, gamma, hi, hwire⟩ := exec_next_wire hexec
    · exact .inl hwire
    · have hframe : frameBytes (withoutReply (takeEvent rest s)) gamma data count =
          frameBytes s gamma data count :=
        frameBytes_congr (s := s) (t := withoutReply (takeEvent rest s)) rfl rfl rfl gamma data count
      rw [hframe] at hwire
      refine .inr ⟨w, rest, data, count, gamma, hin, ?_, hwire⟩
      obtain rfl | rfl := hi
      · exact .inl hdec
      · exact .inr hdec
  · exact absurd hin (hreset rest)
  · exact .inl hwire

/-- Settles O36: a step that writes INITD runs a command, which is INIT (`exec_next_initd`), or is a reset. -/
theorem onlyInitAndResetWriteInitd : Obligations.OnlyInitAndResetWriteInitd := by
  intro s t h hne
  obtain ⟨w, rest, i, hin, hdec, hexec⟩ | ⟨rest, hin, rfl⟩ | ⟨hinitd, -⟩ := step_next_cases h
  · obtain hinitd | ⟨rfl, hset⟩ := exec_next_initd hexec
    · exact absurd hinitd hne
    · exact .inl ⟨w, rest, hin, hdec, hset⟩
  · exact .inr ⟨rest, hin, rfl⟩
  · exact absurd hinitd hne

/-! ### Memory -/

/-- A host step keeps CONST, and DATA but for the byte that a host write stores (R51, R62). -/
theorem hostStep_next_memories {a : HostAction} (h : hostStep a s = .next t) :
    t.constMem = s.constMem ∧ (t.dataMem = s.dataMem ∨
      ∃ addr v, a = .write .data addr v ∧ t.dataMem = Memory.write s.dataMem addr v) := by
  cases a with
  | command w =>
    obtain ⟨i, -, hexec⟩ | ⟨op, -, rfl⟩ := hostCommand_next h
    · obtain ⟨-, -, hdata, hconst, -, -⟩ := exec_next_frame hexec
      exact ⟨hconst, .inl hdata⟩
    · exact ⟨raise_constMem _ _, .inl (raise_dataMem _ _)⟩
  | write space addr v =>
    obtain ⟨rfl, -, ⟨-, rfl⟩ | ⟨-, rfl⟩⟩ := hostWrite_next h
    · exact ⟨raise_constMem _ _, .inl (raise_dataMem _ _)⟩
    · exact ⟨rfl, .inr ⟨addr, v, rfl, rfl⟩⟩
  | read space addr =>
    obtain ⟨-, ⟨-, rfl⟩ | ⟨-, rfl⟩⟩ := hostRead_next h <;> exact ⟨rfl, .inl rfl⟩

/-- A step keeps CONST, and DATA but for the byte that a host write stores: neither the engine nor a reset writes
memory. -/
theorem step_next_memories (h : step s = .next t) :
    t.constMem = s.constMem ∧ (t.dataMem = s.dataMem ∨
      ∃ addr v rest, s.inputs = .host (.write .data addr v) :: rest ∧
        t.dataMem = Memory.write s.dataMem addr v) := by
  obtain ⟨-, ⟨-, -, rfl⟩ | ⟨rest, -, -, rfl⟩ | ⟨a, rest, hin, -, hhost⟩ | ⟨rest, -, rfl⟩⟩ := step_next h
  · exact ⟨engineSlot_constMem s, .inl (engineSlot_dataMem s)⟩
  · exact ⟨engineSlot_constMem (takeEvent rest s), .inl (engineSlot_dataMem (takeEvent rest s))⟩
  · obtain ⟨hconst, hdata | ⟨addr, v, rfl, hdata⟩⟩ := hostStep_next_memories hhost
    · exact ⟨hconst, .inl hdata⟩
    · exact ⟨hconst, .inr ⟨addr, v, rest, hin, hdata⟩⟩
  · exact ⟨rfl, .inl rfl⟩

/-- Settles O34: `step_next_memories`; the stored byte reads as its value, and every other as before. -/
theorem onlyHostWritesChangeMemory : Obligations.OnlyHostWritesChangeMemory := by
  intro s t hwf h
  obtain ⟨hconst, hdata⟩ := step_next_memories h
  refine ⟨fun a => congrArg (Memory.read · a) hconst, fun a => ?_⟩
  obtain hdata | ⟨addr, v, rest, hin, hdata⟩ := hdata
  · exact .inl (congrArg (Memory.read · a) hdata)
  · have hread : t.readByte .data a = Memory.read (Memory.write s.dataMem addr v) a :=
      congrArg (Memory.read · a) hdata
    by_cases ha : a = addr
    · subst ha
      exact .inr ⟨v, rest, hin, hread.trans (Memory.read_write_same a v hwf)⟩
    · exact .inl (hread.trans (Memory.read_write_other v hwf ha))

end Sys2Proof.Machine

/-! ## Memories in canonical form (20_memory.md)

The canonical form from an address on, which the tail of a memory keeps, carries the induction that equal contents
are equal lists. -/

namespace Sys2Proof.Machine

open Sys2Proof

namespace Memory

/-- The canonical form from an address on, which the tail of a memory in canonical form keeps. -/
def canonicalFrom (lo : Nat) (m : Memory) : Prop :=
  risingFrom lo m = true ∧ ∀ cell ∈ m, cell.2 ≠ unlisted

theorem canonicalFrom_zero {m : Memory} (h : wf m = true) : canonicalFrom 0 m := by
  simpa only [canonicalFrom, wf, Bool.and_eq_true, List.all_eq_true, decide_eq_true_eq] using h

theorem canonicalFrom_cons {lo a : Nat} {v : Byte} {m : Memory} (h : canonicalFrom lo ((a, v) :: m)) :
    lo ≤ a ∧ v ≠ unlisted ∧ canonicalFrom (a + 1) m := by
  obtain ⟨hrise, hlisted⟩ := h
  simp only [risingFrom, Bool.and_eq_true, decide_eq_true_eq] at hrise
  obtain ⟨hv, hrest⟩ := List.forall_mem_cons.1 hlisted
  exact ⟨hrise.1, hv, hrise.2, hrest⟩

/-- A memory in canonical form that reads as nothing written is the empty list. -/
theorem canonicalFrom.eq_nil {lo : Nat} {m : Memory} (hm : canonicalFrom lo m)
    (h : ∀ a, read m a = unlisted) : m = [] := by
  cases m with
  | nil => rfl
  | cons cell m =>
    obtain ⟨a, v⟩ := cell
    obtain ⟨-, hv, -⟩ := canonicalFrom_cons hm
    exact absurd ((if_pos rfl).symm.trans (h a)) hv

/-- The first listed address is the lowest one that reads as listed. -/
theorem canonicalFrom.head_le {lo a b : Nat} {v : Byte} {m : Memory} (hm : canonicalFrom lo ((a, v) :: m))
    (h : read ((a, v) :: m) b ≠ unlisted) : a ≤ b := by
  obtain ⟨-, -, htail⟩ := canonicalFrom_cons hm
  by_contra hlt
  rw [read_cons, if_neg (by omega)] at h
  exact h (read_of_lt htail.1 (by omega))

/-- Memories in canonical form that read alike are equal: they have the same first cell, and their tails read
alike. -/
theorem canonicalFrom.ext {lo lo' : Nat} {m n : Memory} (hm : canonicalFrom lo m) (hn : canonicalFrom lo' n)
    (h : ∀ a, read m a = read n a) : m = n := by
  induction m generalizing lo lo' n with
  | nil => exact (hn.eq_nil fun a => (h a).symm).symm
  | cons cell m ih =>
    cases n with
    | nil => exact hm.eq_nil h
    | cons cell' n =>
      obtain ⟨a, v⟩ := cell
      obtain ⟨b, u⟩ := cell'
      obtain ⟨-, hv, hmtail⟩ := canonicalFrom_cons hm
      obtain ⟨-, hu, hntail⟩ := canonicalFrom_cons hn
      have hba : b ≤ a := hn.head_le (by rwa [← h, read_cons, if_pos rfl])
      have hab : a ≤ b := hm.head_le (by rwa [h, read_cons, if_pos rfl])
      obtain rfl : a = b := Nat.le_antisymm hab hba
      have hvu : v = u := by simpa using h a
      have htail : ∀ x, read m x = read n x := by
        intro x
        by_cases hx : a = x
        · subst hx
          rw [read_of_lt hmtail.1 (Nat.lt_succ_self a), read_of_lt hntail.1 (Nat.lt_succ_self a)]
        · simpa [hx] using h x
      rw [hvu, ih hmtail hntail htail]

end Memory

/-- Settles O48: the laws of a write, and `canonicalFrom.ext`. -/
theorem memoryWriteIsReadBack : Obligations.MemoryWriteIsReadBack :=
  ⟨fun _ a v hm => ⟨Memory.wf_write a v hm, Memory.read_write_same a v hm,
      fun _ hb => Memory.read_write_other v hm hb⟩,
    fun _ _ hm hn h => (Memory.canonicalFrom_zero hm).ext (Memory.canonicalFrom_zero hn) h⟩

end Sys2Proof.Machine

/-! ## Each kind of event (R62, R64)

The equations of host accesses that O47 does not need, and the machine's step on each event of the schedule. -/

namespace Sys2Proof.Machine

open Sys2Proof

variable {s : State} {addr : Nat} {rest : List Event}

/-- While the engine is idle no byte is borrowed (R62). -/
theorem borrowed_of_idle (he : s.engine = .idle) (space : Space) (addr : Nat) :
    s.borrowed space addr = false := by
  simp [State.borrowed, he]

/-- A read of an unreadable byte of the space returns a free value, and draws it. -/
theorem hostRead_of_not_readable {space : Space} (ha : addr < spaceSize s.cfg)
    (hr : s.readable space addr = false) : hostRead space addr s =
      .next (withReply (BitVec.ofNat 8 (s.free 0)) { s with draws := s.draws + 1 }) := by
  simp [hostRead, Nat.not_le.2 ha, hr]

theorem hostRead_of_outside {space : Space} (ha : spaceSize s.cfg ≤ addr) :
    hostRead space addr s = .fault (.noSuchAddress space addr) := by
  simp [hostRead, ha]

theorem hostWrite_of_outside {v : Byte} (ha : spaceSize s.cfg ≤ addr) :
    hostWrite .data addr v s = .fault (.noSuchAddress .data addr) := by
  simp [hostWrite, ha]

/-- Settles O51: the step is the host's access, whose equation in each case is above or with O47's. -/
theorem hostReadsAndWritesMemory : Obligations.HostReadsAndWritesMemory := by
  refine ⟨fun s space addr rest hl hf hin => ⟨fun _ hr => ?readable, fun ha hr => ?unreadable, fun ha => ?outside⟩,
    fun s addr v rest hl hf hin => ⟨fun ha hb => ?stored, fun ha => ?outsideWrite⟩,
    fun s addr v rest hl hf hin => step_of_host hl hf hin, fun s space addr he => borrowed_of_idle he space addr⟩
  case readable => exact step_read_of_readable hl hf hin hr
  case unreadable => exact ⟨_, (step_of_host hl hf hin).trans (hostRead_of_not_readable ha hr)⟩
  case outside => exact (step_of_host hl hf hin).trans (hostRead_of_outside ha)
  case stored => exact step_write_of_not_borrowed hl hf hin ha hb
  case outsideWrite => exact (step_of_host hl hf hin).trans (hostWrite_of_outside ha)

/-- A step that takes a command's word runs the command, whatever it answers. -/
theorem step_of_command {w : Nat} {i : Instr} (hl : legalProfile s.cfg.profile = true) (hf : s.fault = none)
    (hin : s.inputs = .host (.command w) :: rest) (hdec : decode s.cfg w = .command i) :
    step s = exec i { s with inputs := rest, reply := none } :=
  (step_of_host hl hf hin).trans (hostCommand_of_command hdec)

/-- Selecting the tier of a word changes nothing else in the build (log entry 2). -/
theorem selectFor_profile (c : Config) (w : Nat) : (c.selectFor w).profile = c.profile := by
  unfold Config.selectFor
  split <;> rfl

/-- Settles O28: each kind of event, and the placed command as the next event of its build. -/
theorem stepRunsTheNextEvent : Obligations.StepRunsTheNextEvent := by
  refine ⟨fun s w rest i hl hf hin hdec => step_of_command hl hf hin hdec,
    fun s w rest op hl hf hin hdec => (step_of_host hl hf hin).trans (hostCommand_of_illegal hdec hf),
    fun s space addr v rest hl hf hin => step_of_host hl hf hin,
    fun s space addr rest hl hf hin => step_of_host hl hf hin,
    fun s rest hl hf hin => step_of_engine hl hf hin,
    fun s hl hf hin => step_of_no_event hl hf hin,
    fun s nbits w i hl hf hdec => ?placed⟩
  case placed =>
    have hlegal : legalProfile (s.withFetchWord nbits w).cfg.profile = true := by
      rw [← hl]; exact congrArg legalProfile (selectFor_profile s.cfg _)
    exact step_of_command (s := s.withFetchWord nbits w) hlegal hf rfl hdec

/-- Settles O37: the engine's slot does nothing, and no host event is left. -/
theorem restingMachineWaits : Obligations.RestingMachineWaits := by
  intro s hl hf hin he
  refine ⟨?_, by simp [State.ended, hf, hin, he]⟩
  rw [step_of_no_event hl hf hin, engineSlot_of_idle he]

end Sys2Proof.Machine

/-! ## The invariant (10_state.md, R65, R107, R111)

One lemma per thing a step can do to a state that meets the invariant: an engine slot, an accepted output of each
tier, a store outside the borrowed region, a reset. What writes none of the registers that the invariant names is
`State.Inv.congr`. -/

namespace Sys2Proof.Machine

open Sys2Proof

variable {s t : State} {data count : Nat} {gamma : Option Nat}

/-! ### The engine's step -/

/-- Up to the frame's end, the byte index is at most the frame's length. -/
theorem div_div_le_length {n T k : Nat} (hk : k ≤ 8 * n * T) : k / T / 8 ≤ n := by
  rw [Nat.div_div_eq_div_mul]
  apply Nat.div_le_of_le_mul
  calc k ≤ 8 * n * T := hk
    _ = T * 8 * n := by ring

/-- A timer cycle of a transfer in flight keeps the invariant: before the frame's end SHIFT holds the next byte to
emit, and the frame's last cycle leaves the line low (R107, R111). -/
theorem State.Inv.timerCycle (hi : s.Inv) (he : s.engine = .transferring) : (timerCycle s).Inv := by
  obtain ⟨hat, hlt⟩ := hi.timerAt he
  rw [← hi.seqLength] at hlt
  obtain ⟨⟨-, hcyc, -, hbyte, hshift⟩, hline, hengine⟩ := timerCycle_at hi.legal hat hlt
  rw [timerCycle_cfg] at hcyc hbyte hshift
  have hidle_iff : (Machine.timerCycle s).engine = .idle ↔
      framePosition s + 1 = frameCycles s.cfg s.seq.length := by
    rw [hengine, he]; split <;> simp [*]
  have hlow : (Machine.timerCycle s).engine = .idle → (Machine.timerCycle s).line = false := fun hidle => by
    rw [hline]; exact level_of_last hi.legal (hidle_iff.1 hidle)
  have hleft : (Machine.timerCycle s).engine = .transferring →
      (Machine.timerCycle s).byteIdx < s.seq.length := fun hbusy => by
    have hne := mt hidle_iff.2 (by simp [hbusy])
    rw [hbyte]; exact div_div_lt_length (Nat.lt_of_le_of_ne hlt hne)
  have hholds : (Machine.timerCycle s).engine = .transferring →
      s.seq[(Machine.timerCycle s).byteIdx]? = some (Machine.timerCycle s).shift := fun hbusy => by
    have hlt := hleft hbusy
    rwa [← hbyte, Nat.min_eq_left (by omega)] at hshift
  have hinside : (Machine.timerCycle s).byteIdx ≤ s.xferCount := by
    rw [hbyte, ← hi.seqLength]; exact div_div_le_length hlt
  have hcycle : (Machine.timerCycle s).cyc < s.cfg.profile.tTotal := by
    rw [hcyc]; exact Nat.mod_lt _ (tTotal_pos hi.legal)
  have hnotA : s.cfg.tier ≠ .a := fun ht => by rw [hi.tierAIdle ht] at he; cases he
  rw [timerCycle_frame]
  exact { hi with
    tierAIdle := fun ht => absurd ht hnotA
    byteInside := hinside
    cycInside := hcycle
    idleLow := fun _ => hlow
    transfer := fun hbusy =>
      { hi.transfer he with
        byteLeft := hi.seqLength ▸ hleft hbusy
        shiftHolds := hholds hbusy
        bytesHeld := (hi.transfer he).bytesHeld.trans
          (frameBytes_congr (t := s) (by rfl) (by rfl) (by rfl) _ _ _) } }

theorem State.Inv.engineSlot (hi : s.Inv) : (engineSlot s).Inv := by
  obtain ⟨hen, hslot⟩ | ⟨-, hslot⟩ := engineSlot_cases s
  · obtain ⟨-, he, -, -⟩ := engineEnabled_iff.1 hen
    rw [hslot]; exact hi.timerCycle he
  · rw [hslot]; exact hi

/-! ### The commands -/

/-- A readable region lies inside its space (R54, R59). -/
theorem add_le_spaceSize_of_readable {space : Space} {a n : Nat} (hn : n ≠ 0)
    (h : ∀ i, i < n → s.readable space (a + i) = true) : a + n ≤ spaceSize s.cfg := by
  have := lt_spaceSize_of_readable (h (n - 1) (by omega))
  omega

/-- A table that passes the check lies inside GAMMA_SPACE (R122). -/
theorem table_inside_of_tableFault (h : tableFault s gamma = none) {base : Nat} (hbase : gamma = some base) :
    base + gammaEntries ≤ spaceSize s.cfg :=
  add_le_spaceSize_of_readable (by decide) (tableFault_eq_none.1 h base hbase)

theorem table_base_lt_of_tableFault (h : tableFault s gamma = none) {base : Nat} (hbase : gamma = some base) :
    base < spaceSize s.cfg := by
  have hinside := table_inside_of_tableFault h hbase
  have hentries : 0 < gammaEntries := by decide
  omega

/-- INIT outside a transfer meets the invariant: it lowers the line (R130). -/
theorem State.Inv.execWsInit (hi : s.Inv) (h : execWsInit s = .next t) : t.Inv := by
  obtain ⟨-, ⟨-, -, rfl⟩ | ⟨hb, rfl⟩⟩ := execWsInit_next h
  · exact hi.congr rfl rfl rfl rfl rfl rfl rfl rfl rfl rfl rfl rfl rfl rfl
  · have hidle : s.engine = .idle := by
      cases ht : s.cfg.tier with
      | a => exact hi.tierAIdle ht
      | b => exact EngineState.eq_idle_of_ne_transferring fun he => hb ⟨ht, he⟩
    exact { hi with
      idleLow := fun _ _ => rfl
      transfer := fun he => by rw [show s.engine = .transferring from he] at hidle; cases hidle }

/-- A completed OUTPUT_SYNC meets the invariant: its registers hold operands that fit, and the engine is idle with
the line low (R132). -/
theorem State.Inv.execWsOut (hi : s.Inv) (hcount : count < 2 ^ s.cfg.countBits)
    (h : execWsOut data count gamma s = .next t) : t.Inv := by
  obtain ⟨-, ⟨f, rfl⟩ | ⟨-, -, hn, hregion, rfl⟩⟩ := execWsOut_next h
  · exact hi.congr rfl rfl rfl rfl rfl rfl rfl rfl rfl rfl rfl rfl rfl rfl
  · obtain ⟨hbuf, htable⟩ := regionFault_eq_none.1 hregion
    have hspan : 0 < tierASpan count gamma := lt_tierASpan_iff.2 (.inl (Nat.pos_of_ne_zero hn))
    have haddr : data < spaceSize s.cfg := lt_spaceSize_of_readable (hbuf 0 hspan)
    rw [emitBlocking_eq hi.legal hn]
    exact { hi with
      tierAIdle := fun _ => rfl
      addrFits := haddr
      countFits := hcount
      gammaFits := fun _ => table_base_lt_of_tableFault htable
      seqLength := length_frameBytes ..
      byteInside := le_rfl
      cycInside := tTotal_pos hi.legal
      idleLow := fun _ _ => rfl
      transfer := nofun }

/-- An armed transfer meets the invariant: the frame is the buffer's bytes, its first one in SHIFT (R151). -/
theorem State.Inv.execWsOuta (hi : s.Inv) (hcount : count < 2 ^ s.cfg.countBits)
    (h : execWsOuta data count gamma s = .next t) : t.Inv := by
  obtain ⟨-, ⟨f, rfl⟩ | ⟨-, -, -, -, rfl⟩ | ⟨ht, hd, hn, -, hregion, rfl⟩⟩ := execWsOuta_next h
  · exact hi.congr rfl rfl rfl rfl rfl rfl rfl rfl rfl rfl rfl rfl rfl rfl
  · exact hi.congr rfl rfl rfl rfl rfl rfl rfl rfl rfl rfl rfl rfl rfl rfl
  · obtain ⟨hbuf, htable⟩ := regionFault_eq_none.1 hregion
    have hinside : data + count ≤ spaceSize s.cfg := add_le_spaceSize_of_readable hn hbuf
    have hpos : 0 < count := Nat.pos_of_ne_zero hn
    have hfirst : (frameBytes s gamma data count)[0]? = some ((frameBytes s gamma data count).headD 0) := by
      rw [headD_frameBytes hn, getElem?_frameBytes hpos, Nat.add_zero]
    rw [armTransfer_eq]
    exact { hi with
      tierAIdle := fun hta => by rw [show s.cfg.tier = .a from hta] at ht; cases ht
      addrFits := by show data < spaceSize s.cfg; omega
      countFits := hcount
      gammaFits := fun _ => table_base_lt_of_tableFault htable
      seqLength := length_frameBytes ..
      byteInside := Nat.zero_le _
      cycInside := tTotal_pos hi.legal
      idleLow := nofun
      transfer := fun _ =>
        { initialized := hd
          byteLeft := hpos
          shiftHolds := hfirst
          bufferInside := hinside
          tableInside := fun _ => table_inside_of_tableFault htable
          bytesHeld := frameBytes_congr (t := s) (by rfl) (by rfl) (by rfl) gamma data count
          recorded := by simp } }

/-- Every command whose operands fit keeps the invariant. -/
theorem State.Inv.exec {i : Instr} (hi : s.Inv) (hfit : i.fits s.cfg = true) (h : exec i s = .next t) : t.Inv := by
  cases i with
  | wsInit => exact hi.execWsInit h
  | wsOut data count gamma =>
    obtain ⟨-, hcount, -⟩ := operandsFit_iff.1 hfit
    exact hi.execWsOut hcount h
  | wsOuta data count gamma =>
    obtain ⟨-, hcount, -⟩ := operandsFit_iff.1 hfit
    exact hi.execWsOuta hcount h
  | wsCheck =>
    obtain ⟨-, ⟨f, rfl⟩ | ⟨-, -, rfl⟩⟩ := execWsCheck_next h <;>
      exact hi.congr rfl rfl rfl rfl rfl rfl rfl rfl rfl rfl rfl rfl rfl rfl

/-! ### Host accesses and reset -/

theorem State.Inv.raise (hi : s.Inv) (f : Raised) : (raise f s).Inv :=
  hi.congr (by simp) (by simp) (by simp) (by simp) (by simp) (by simp) (by simp) (by simp) (by simp) (by simp)
    (by simp) (by simp) (by simp) (by simp)

/-- A store to a byte that is not borrowed changes no byte of the frame in flight (R62, R65). -/
theorem frameBytes_storeData {a : Nat} (hwf : Memory.wf s.dataMem = true) (he : s.engine = .transferring)
    (hb : s.borrowed .data a = false) (v : Byte) :
    frameBytes (storeData a v s) s.xferGamma s.xferAddr s.xferCount =
      frameBytes s s.xferGamma s.xferAddr s.xferCount := by
  have hout := mt (borrowed_data_iff he).2 (Bool.eq_false_iff.1 hb)
  refine frameBytes_congr_of_bytes rfl (fun i hlt => ?_) fun base hbase k hk => ?_
  · refine readByte_data_storeData_other hwf v fun hia => hout (.inl ?_)
    omega
  · refine readByte_table_storeData hwf v ?_ hk
    cases hspace : s.cfg.gammaSpace with
    | const => exact .inl rfl
    | data =>
      refine .inr ?_
      by_contra hin
      exact hout (.inr ⟨hspace, base, hbase, by omega, by omega⟩)

/-- A store inside DATA to a byte that is not borrowed keeps the invariant. -/
theorem State.Inv.storeData (hi : s.Inv) {a : Nat} (ha : a < spaceSize s.cfg) (hb : s.borrowed .data a = false)
    (v : Byte) : (storeData a v s).Inv :=
  { hi with
    dataWf := Memory.wf_write a v hi.dataWf
    dataInside := Memory.within_write v ha hi.dataInside
    transfer := fun he =>
      { hi.transfer he with
        bytesHeld := (hi.transfer he).bytesHeld.trans (frameBytes_storeData hi.dataWf he hb v).symm } }

theorem State.Inv.hostStep {a : HostAction} (hi : s.Inv) (h : hostStep a s = .next t) : t.Inv := by
  have hclear : (withoutReply s).Inv := hi.congr rfl rfl rfl rfl rfl rfl rfl rfl rfl rfl rfl rfl rfl rfl
  cases a with
  | command w =>
    obtain ⟨i, hdec, hexec⟩ | ⟨op, -, rfl⟩ := hostCommand_next h
    · obtain ⟨-, hfit⟩ := Bool.and_eq_true_iff.1 (wf_of_decode hdec)
      exact hclear.exec hfit hexec
    · exact hclear.raise _
  | write space addr v =>
    obtain ⟨-, ha, ⟨-, rfl⟩ | ⟨hb, rfl⟩⟩ := hostWrite_next h
    · exact hclear.raise _
    · exact hclear.storeData ha hb v
  | read space addr =>
    obtain ⟨-, ⟨-, rfl⟩ | ⟨-, rfl⟩⟩ := hostRead_next h <;>
      exact hi.congr rfl rfl rfl rfl rfl rfl rfl rfl rfl rfl rfl rfl rfl rfl

/-- A drawn table base is an address of the space (R28, R35). -/
theorem resetBlock_gamma_lt {base : Nat} (h : (resetBlock s).xferGamma = some base) : base < spaceSize s.cfg := by
  simp only [resetBlock] at h
  split at h
  · cases h; exact Nat.mod_lt _ (Nat.two_pow_pos _)
  · cases h

/-- Reset keeps the invariant: each drawn register is inside its range, INITD is 0 and the engine idle (R35). -/
theorem State.Inv.resetBlock (hi : s.Inv) : (resetBlock s).Inv :=
  { hi with
    tierAIdle := fun _ => rfl
    addrFits := Nat.mod_lt _ (Nat.two_pow_pos _)
    countFits := Nat.mod_lt _ (Nat.two_pow_pos _)
    gammaFits := fun _ hbase => resetBlock_gamma_lt (s := s) hbase
    seqLength := by simp [Machine.resetBlock]
    byteInside := Nat.lt_succ_iff.1 (Nat.mod_lt _ (Nat.succ_pos _))
    cycInside := Nat.mod_lt _ (tTotal_pos hi.legal)
    idleLow := nofun
    transfer := nofun }

/-- Settles O29: each of the step's four cases has its lemma above. -/
theorem stepKeepsTheInvariant : Obligations.StepKeepsTheInvariant := by
  intro s t hi h
  obtain ⟨-, ⟨-, -, rfl⟩ | ⟨rest, -, -, rfl⟩ | ⟨a, rest, -, -, hhost⟩ | ⟨rest, -, rfl⟩⟩ := step_next h
  · exact hi.engineSlot
  · exact (hi.takeEvent rest).engineSlot
  · exact (hi.takeEvent rest).hostStep hhost
  · exact (hi.takeEvent rest).resetBlock

/-- The machine of a legal build right after reset: its registers are 0, INITD is 0 and the engine idle. -/
theorem State.boot_inv {c : Config} (holes : List Region) {dataMem constMem : Memory}
    (hl : legalProfile c.profile = true) (hdata : Memory.wf dataMem = true) (hconst : Memory.wf constMem = true)
    (hdataIn : Memory.within (spaceSize c) dataMem = true)
    (hconstIn : Memory.within (spaceSize c) constMem = true) : (State.boot c holes dataMem constMem).Inv where
  legal := hl
  dataWf := hdata
  constWf := hconst
  dataInside := hdataIn
  constInside := hconstIn
  tierAIdle := fun _ => rfl
  addrFits := Nat.two_pow_pos _
  countFits := Nat.two_pow_pos _
  gammaFits := nofun
  seqLength := rfl
  byteInside := le_rfl
  cycInside := tTotal_pos hl
  idleLow := nofun
  transfer := nofun

/-- Settles O30: `State.boot_inv`, of which `State.reset` is the default build with nothing in memory. -/
theorem resetMeetsTheInvariant : Obligations.ResetMeetsTheInvariant :=
  ⟨State.boot_inv (c := .default) [] rfl rfl rfl rfl rfl,
    fun _ holes _ _ hl hdata hconst hdataIn hconstIn => State.boot_inv holes hl hdata hconst hdataIn hconstIn⟩

/-! ### Completion (R154, R155) -/

/-- A run that steps on goes on from the next state. -/
theorem run_succ_of_next {M : Host.Core} {x y : M.State} (h : M.step x = .next y) (k : Nat) :
    M.run (k + 1) x = M.run k y := by
  rw [Host.Core.run, h]

/-- With no event left, `k` steps are `k` engine slots (R155, log entry 9). -/
theorem run_of_no_event (hl : legalProfile s.cfg.profile = true) (hf : s.fault = none) (hin : s.inputs = [])
    (k : Nat) : core.run k s = .next (repeatCycle engineSlot k s) := by
  induction k generalizing s with
  | zero => rfl
  | succ k ih =>
    calc core.run (k + 1) s = core.run k (engineSlot s) :=
          run_succ_of_next (M := core) (step_of_no_event hl hf hin) k
      _ = .next (repeatCycle engineSlot k (engineSlot s)) :=
          ih (by simpa using hl) (by simpa using hf) (by simpa using hin)

/-- Settles O46: the slots are timer cycles from the frame position on; the last one makes the engine idle and
leaves the line low. -/
theorem armedTransferCompletes : Obligations.ArmedTransferCompletes := by
  intro s hi hf ht he hin
  have hl := hi.legal
  obtain ⟨hat, hlt⟩ := hi.timerAt he
  rw [← hi.seqLength] at hlt ⊢
  have hslots {k : Nat} (hk : framePosition s + k ≤ frameCycles s.cfg s.seq.length) :
      core.run k s = .next (repeatCycle timerCycle k s) := by
    rw [run_of_no_event hl hf hin, repeatCycle_engineSlot_eq hl ht hf he hi.seqLength.symm hat hk]
  refine ⟨fun k hk => ⟨_, hslots hk.le, (repeatCycle_timerCycle_engine hl hat hk).trans he⟩, ?_⟩
  obtain ⟨m, hm⟩ : ∃ m, frameCycles s.cfg s.seq.length - framePosition s = m + 1 :=
    Nat.exists_eq_succ_of_ne_zero (by omega)
  have hlast : framePosition s + m + 1 = frameCycles s.cfg s.seq.length := by omega
  obtain ⟨-, hline, hengine⟩ := repeatCycle_timerCycle_succ hl hat (k := m) (by omega)
  rw [if_pos hlast] at hengine
  rw [level_of_last hl hlast] at hline
  rw [hm]
  exact ⟨_, hslots (by omega), hengine, hline, by simp, by simp [State.ended, hengine, hf, hin]⟩

end Sys2Proof.Machine

/-! ## Pulses (R104, R105, R109, R110, R112)

The pulse list of a frame entry by entry, the level inside one bit period, and the decoding of pulses. -/

namespace Sys2Proof.Machine

open Sys2Proof

variable {s : State} {c : Config} {bytes : List Byte} {v : Byte} {j k : Nat}

/-! ### The pulse list -/

@[simp] theorem length_bytePulses (c : Config) (v : Byte) : (bytePulses c v).length = 8 := rfl

theorem pulses_cons (c : Config) (v : Byte) (bytes : List Byte) :
    pulses c (v :: bytes) = bytePulses c v ++ pulses c bytes := rfl

@[simp] theorem length_pulses (c : Config) (bytes : List Byte) : (pulses c bytes).length = 8 * bytes.length := by
  induction bytes with
  | nil => rfl
  | cons v bytes ih => rw [pulses_cons, List.length_append, length_bytePulses, ih, List.length_cons]; ring

theorem getElem?_bytePulses (hk : k < 8) : (bytePulses c v)[k]? = some (thr c (msbBit v k)) := by
  simp [bytePulses, hk]

/-- The first eight frame bits are the first byte's (R105). -/
theorem frameBit_cons_of_lt (hj : j < 8) : frameBit (v :: bytes) j = msbBit v j := by
  rw [frameBit, Nat.div_eq_of_lt hj, Nat.mod_eq_of_lt hj]
  rfl

theorem frameBit_cons_add (v : Byte) (bytes : List Byte) (j : Nat) :
    frameBit (v :: bytes) (8 + j) = frameBit bytes j := by
  rw [frameBit, Nat.add_mod_left, Nat.add_div_left j (by decide)]
  rfl

/-- Pulse `j` of a frame is the high-time of frame bit `j` (R105, R110). -/
theorem getElem?_pulses (hj : j < 8 * bytes.length) :
    (pulses c bytes)[j]? = some (thr c (frameBit bytes j)) := by
  induction bytes generalizing j with
  | nil => exact absurd hj (Nat.not_lt_zero j)
  | cons v bytes ih =>
    rw [pulses_cons]
    by_cases hlt : j < 8
    · rw [List.getElem?_append_left hlt, getElem?_bytePulses hlt, frameBit_cons_of_lt hlt]
    · obtain ⟨i, rfl⟩ := Nat.exists_eq_add_of_le (Nat.not_lt.1 hlt)
      rw [List.length_cons] at hj
      rw [List.getElem?_append_right (Nat.le_add_right 8 i), length_bytePulses, Nat.add_sub_cancel_left,
        ih (by omega), frameBit_cons_add]

/-! ### One bit period -/

/-- Cycle `k` of period `j` is high exactly below the high-time of frame bit `j` (R109). -/
theorem level_in_period (hk : k < c.profile.tTotal) :
    level c bytes (j * c.profile.tTotal + k) = decide (k < thr c (frameBit bytes j)) := by
  rw [level, Nat.mul_comm, Nat.mul_add_mod, Nat.mod_eq_of_lt hk, Nat.mul_add_div (by omega),
    Nat.div_eq_of_lt hk, Nat.add_zero]

/-- The high cycles of a period are counted by its high-time (R104). -/
theorem highTime_eq (hl : legalProfile c.profile = true) (bytes : List Byte) (j : Nat) :
    highTime c bytes j = thr c (frameBit bytes j) := by
  have hlevel : ∀ k ∈ List.range c.profile.tTotal,
      level c bytes (j * c.profile.tTotal + k) = decide (k < thr c (frameBit bytes j)) :=
    fun k hk => level_in_period (List.mem_range.1 hk)
  rw [highTime, List.filter_congr hlevel, ← List.Ico.zero_bot, List.Ico.filter_lt, List.Ico.length,
    Nat.sub_zero, Nat.min_eq_right (thr_lt_tTotal hl _).le]

/-! ### The length of a frame -/

theorem repeatCycle_add (f : State → State) (m n : Nat) (s : State) :
    repeatCycle f (m + n) s = repeatCycle f n (repeatCycle f m s) := by
  induction n with
  | zero => rfl
  | succ n ih => rw [← Nat.add_assoc, repeatCycle_succ_right, repeatCycle_succ_right, ih]

/-- The timer has emitted all bytes from the frame's last cycle on, and not before (R107, R110). -/
theorem byteIdx_eq_length_iff (hl : legalProfile s.cfg.profile = true) (hne : bytes ≠ []) :
    (repeatCycle timerCycle k (startFrame bytes s)).byteIdx = bytes.length ↔
      frameCycles s.cfg bytes.length ≤ k := by
  have hT := tTotal_pos hl
  have hstart := timerAt_startFrame hne s
  have hbyte {i : Nat} (hi : i ≤ frameCycles s.cfg bytes.length) :
      (repeatCycle timerCycle i (startFrame bytes s)).byteIdx = i / s.cfg.profile.tTotal / 8 := by
    have hat := repeatCycle_timerCycle_at (s := startFrame bytes s) (k := i) hl hstart (by simpa using hi)
    simpa using hat.byteIdx
  by_cases hk : k < frameCycles s.cfg bytes.length
  · rw [hbyte hk.le]
    have hlt : k / s.cfg.profile.tTotal / 8 < bytes.length := div_div_lt_length hk
    exact iff_of_false hlt.ne hk.not_ge
  · obtain ⟨i, rfl⟩ := Nat.exists_eq_add_of_le (Nat.not_lt.1 hk)
    have hend : (repeatCycle timerCycle (frameCycles s.cfg bytes.length) (startFrame bytes s)).byteIdx =
        bytes.length := by
      rw [hbyte le_rfl, frameCycles, Nat.mul_div_cancel _ hT, Nat.mul_div_cancel_left _ (by decide)]
    have hdone : ∀ t : State, t.seq = bytes ∧ t.byteIdx = bytes.length →
        (timerCycle t).seq = bytes ∧ (timerCycle t).byteIdx = bytes.length := by
      rintro t ⟨hseq, hidx⟩
      rw [timerCycle_done (by rw [hseq, hidx])]
      exact ⟨hseq, hidx⟩
    rw [repeatCycle_add]
    exact iff_of_true (repeatCycle_keeps hdone i ⟨by simp, hend⟩).2 (Nat.le_add_right _ i)

/-- Settles O41: the pulse list entry by entry, each period's level, and where the timer stands at the frame's
end. -/
theorem frameLengthAndPulses : Obligations.FrameLengthAndPulses := by
  refine ⟨fun c bytes hl => ⟨length_pulses c bytes, fun j hj => ?_⟩,
    fun s bytes k hl hne => byteIdx_eq_length_iff hl hne, fun b0 b1 b2 => ⟨length_pulses _ _, rfl⟩⟩
  exact ⟨getElem?_pulses hj, highTime_eq hl bytes j, fun k => level_in_period⟩

/-! ### Decoding -/

/-- The two high-times differ, so a pulse names its bit (R101, R112). -/
theorem decodePulse_thr (hl : legalProfile c.profile = true) (b : Bool) : decodePulse c (thr c b) = some b := by
  obtain ⟨-, hlt, -⟩ := legalProfile_iff.1 hl
  cases b with
  | false => simp [decodePulse, hlt.ne]
  | true => simp [decodePulse]

theorem mapM_decodePulse (hl : legalProfile c.profile = true) (bits : List Bool) :
    (bits.map (thr c)).mapM (decodePulse c) = some bits := by
  induction bits with
  | nil => rfl
  | cons b bits ih => simp [decodePulse_thr hl, ih]

/-- A byte is its eight bits, the most significant first (R105). -/
theorem packBits_msbBit (v : Byte) : packBits ((List.range 8).map (msbBit v)) = v := by
  revert v
  decide

theorem decodeBytePulses_bytePulses (hl : legalProfile c.profile = true) (v : Byte) :
    decodeBytePulses c (bytePulses c v) = some v := by
  have hbits : bytePulses c v = ((List.range 8).map (msbBit v)).map (thr c) := by
    rw [List.map_map]; rfl
  rw [decodeBytePulses, hbits, mapM_decodePulse hl, Option.map_some, packBits_msbBit]

/-- Eight pulses at the head of a list are decoded as one byte (R112). -/
theorem decodePulses_bytePulses_append (hl : legalProfile c.profile = true) (v : Byte) {hs : List Nat}
    {vs : List Byte} (h : decodePulses c hs = some vs) :
    decodePulses c (bytePulses c v ++ hs) = some (v :: vs) := by
  have hbyte := decodeBytePulses_bytePulses hl v
  have hlist : bytePulses c v = [thr c (msbBit v 0), thr c (msbBit v 1), thr c (msbBit v 2),
    thr c (msbBit v 3), thr c (msbBit v 4), thr c (msbBit v 5), thr c (msbBit v 6), thr c (msbBit v 7)] := rfl
  rw [hlist] at hbyte ⊢
  simp [decodePulses, hbyte, h]

/-- The pulses of a frame decode to its bytes (R112). -/
theorem decodePulses_pulses (hl : legalProfile c.profile = true) (bytes : List Byte) :
    decodePulses c (pulses c bytes) = some bytes := by
  induction bytes with
  | nil => rfl
  | cons v bytes ih => rw [pulses_cons]; exact decodePulses_bytePulses_append hl v ih

/-- Settles O42: a pulse names its bit, eight bits are a byte, and so along the list. -/
theorem pulsesDecodeToTheBytes : Obligations.PulsesDecodeToTheBytes :=
  fun _ hl => ⟨decodePulse_thr hl true, decodePulse_thr hl false, decodePulses_pulses hl⟩

end Sys2Proof.Machine

/-! ## The parameters that no rule reads (R113, R197)

Every operation of the machine commutes with `State.withUnread`: the state fields and the other parameters are the
same on both sides, so each equation is the operation's own recursion or case split with equal conditions. -/

namespace Sys2Proof.Machine

open Sys2Proof

/-! ### What the operations read -/

section
variable (fOut fClk gap : Nat) (s : State)

@[simp] theorem withUnread_initd : (s.withUnread fOut fClk gap).initd = s.initd := rfl
@[simp] theorem withUnread_engine : (s.withUnread fOut fClk gap).engine = s.engine := rfl
@[simp] theorem withUnread_xferGamma : (s.withUnread fOut fClk gap).xferGamma = s.xferGamma := rfl
@[simp] theorem withUnread_seq : (s.withUnread fOut fClk gap).seq = s.seq := rfl
@[simp] theorem withUnread_byteIdx : (s.withUnread fOut fClk gap).byteIdx = s.byteIdx := rfl
@[simp] theorem withUnread_bitIdx : (s.withUnread fOut fClk gap).bitIdx = s.bitIdx := rfl
@[simp] theorem withUnread_cyc : (s.withUnread fOut fClk gap).cyc = s.cyc := rfl
@[simp] theorem withUnread_inputs : (s.withUnread fOut fClk gap).inputs = s.inputs := rfl
@[simp] theorem withUnread_tier : (s.withUnread fOut fClk gap).cfg.tier = s.cfg.tier := rfl
@[simp] theorem withUnread_tTotal :
    (s.withUnread fOut fClk gap).cfg.profile.tTotal = s.cfg.profile.tTotal := rfl
@[simp] theorem spaceSize_withUnread : spaceSize (s.withUnread fOut fClk gap).cfg = spaceSize s.cfg := rfl

theorem decode_withUnread (w : Nat) : decode (s.withUnread fOut fClk gap).cfg w = decode s.cfg w := rfl

theorem readable_withUnread (space : Space) (a : Nat) :
    (s.withUnread fOut fClk gap).readable space a = s.readable space a := rfl

theorem frameBytes_withUnread (gamma : Option Nat) (a n : Nat) :
    frameBytes (s.withUnread fOut fClk gap) gamma a n = frameBytes s gamma a n :=
  frameBytes_congr (s := s) (t := s.withUnread fOut fClk gap) rfl rfl rfl gamma a n

theorem frameReads_withUnread (gamma : Option Nat) (a n : Nat) :
    frameReads (s.withUnread fOut fClk gap) gamma a n = frameReads s gamma a n :=
  frameReads_congr_of_bytes (s := s) (t := s.withUnread fOut fClk gap) rfl fun _ _ => rfl

theorem firstUnreadable_withUnread (space : Space) (a n : Nat) :
    firstUnreadable (s.withUnread fOut fClk gap) space a n = firstUnreadable s space a n := by
  induction n generalizing a with
  | zero => rfl
  | succ n ih => rw [firstUnreadable, firstUnreadable, readable_withUnread, ih]

theorem regionFault_withUnread (a span : Nat) (gamma : Option Nat) :
    regionFault (s.withUnread fOut fClk gap) a span gamma = regionFault s a span gamma := by
  have htable : tableFault (s.withUnread fOut fClk gap) gamma = tableFault s gamma := by
    cases gamma with
    | none => rfl
    | some base =>
      exact congrArg (Option.map (Raised.unreadable s.cfg.gammaSpace))
        (firstUnreadable_withUnread fOut fClk gap s s.cfg.gammaSpace base gammaEntries)
  rw [regionFault, regionFault, firstUnreadable_withUnread, htable]

end

/-! ### What the operations write -/

section
variable {fOut fClk gap : Nat} {s : State}

theorem raise_withUnread (f : Raised) :
    raise f (s.withUnread fOut fClk gap) = (raise f s).withUnread fOut fClk gap := by
  cases hf : s.fault with
  | none => rw [raise_of_none hf, raise_of_none (s := s.withUnread fOut fClk gap) hf]; rfl
  | some g => rw [raise_of_some hf, raise_of_some (s := s.withUnread fOut fClk gap) hf]

theorem nextByte_withUnread :
    nextByte (s.withUnread fOut fClk gap) = (nextByte s).withUnread fOut fClk gap := by
  rw [nextByte, nextByte, withUnread_seq, withUnread_byteIdx]
  split <;> rfl

theorem advance_withUnread :
    advance (s.withUnread fOut fClk gap) = (advance s).withUnread fOut fClk gap := by
  rw [advance, advance, withUnread_cyc, withUnread_tTotal, withUnread_bitIdx]
  split
  · rfl
  · split
    · rfl
    · exact nextByte_withUnread (s := { s with cyc := 0, bitIdx := 0 })

theorem timerCycle_withUnread :
    timerCycle (s.withUnread fOut fClk gap) = (timerCycle s).withUnread fOut fClk gap := by
  rw [timerCycle, timerCycle, withUnread_byteIdx, withUnread_seq]
  split
  · exact advance_withUnread (s := { s with line := decide (s.cyc < thr s.cfg s.currentBit) })
  · rfl

theorem prefetchNext_withUnread :
    prefetchNext (s.withUnread fOut fClk gap) = (prefetchNext s).withUnread fOut fClk gap := by
  rw [prefetchNext, prefetchNext, withUnread_xferGamma, withUnread_byteIdx, withUnread_seq]
  split
  · rfl
  · split <;> rfl

theorem repeatCycle_withUnread {f : State → State}
    (hf : ∀ s, f (s.withUnread fOut fClk gap) = (f s).withUnread fOut fClk gap) (n : Nat) :
    repeatCycle f n (s.withUnread fOut fClk gap) = (repeatCycle f n s).withUnread fOut fClk gap := by
  induction n with
  | zero => rfl
  | succ n ih => rw [repeatCycle_succ_right, repeatCycle_succ_right, ih, hf]

theorem engineSlot_withUnread :
    engineSlot (s.withUnread fOut fClk gap) = (engineSlot s).withUnread fOut fClk gap := by
  have hsame : (s.withUnread fOut fClk gap).engineEnabled = s.engineEnabled := rfl
  rw [engineSlot, engineSlot, hsame]
  split
  · exact timerCycle_withUnread
  · rfl

theorem syncCycle_withUnread :
    syncCycle (s.withUnread fOut fClk gap) = (syncCycle s).withUnread fOut fClk gap := by
  rw [syncCycle, syncCycle, timerCycle_withUnread, prefetchNext_withUnread]

theorem emitBlocking_withUnread (addr n : Nat) (gamma : Option Nat) :
    emitBlocking addr n gamma (s.withUnread fOut fClk gap) =
      (emitBlocking addr n gamma s).withUnread fOut fClk gap := by
  have hstart : syncStart addr n gamma (s.withUnread fOut fClk gap) =
      (syncStart addr n gamma s).withUnread fOut fClk gap := by
    rw [syncStart, syncStart, frameBytes_withUnread, frameReads_withUnread, ← prefetchNext_withUnread]
    rfl
  rw [emitBlocking, emitBlocking, hstart]
  exact repeatCycle_withUnread (fun _ => syncCycle_withUnread) _

theorem armTransfer_withUnread (addr n : Nat) (gamma : Option Nat) :
    armTransfer addr n gamma (s.withUnread fOut fClk gap) =
      (armTransfer addr n gamma s).withUnread fOut fClk gap := by
  rw [armTransfer_eq, armTransfer_eq, frameBytes_withUnread, frameReads_withUnread]
  rfl

/-! ### Commands, host steps and steps -/

theorem raised_withUnread (f : Raised) :
    raised f (s.withUnread fOut fClk gap) = mapNext (State.withUnread fOut fClk gap) (raised f s) :=
  congrArg Host.Outcome.next (raise_withUnread f)

theorem running_withUnread {k k' : Host.Outcome State Fault Refusal}
    (hk : k' = mapNext (State.withUnread fOut fClk gap) k) :
    running (s.withUnread fOut fClk gap) k' = mapNext (State.withUnread fOut fClk gap) (running s k) := by
  cases hf : s.fault with
  | none => rw [running_of_none hf, running_of_none (s := s.withUnread fOut fClk gap) hf, hk]
  | some f => rw [running_of_some hf, running_of_some (s := s.withUnread fOut fClk gap) hf]; rfl

theorem execWsInit_withUnread : execWsInit (s.withUnread fOut fClk gap) =
    mapNext (State.withUnread fOut fClk gap) (execWsInit s) := by
  refine running_withUnread ?_
  rw [withUnread_tier, withUnread_engine]
  split
  · exact raised_withUnread _
  · rfl

theorem execWsOut_withUnread (data count : Nat) (gamma : Option Nat) :
    execWsOut data count gamma (s.withUnread fOut fClk gap) =
      mapNext (State.withUnread fOut fClk gap) (execWsOut data count gamma s) := by
  refine running_withUnread ?_
  rw [withUnread_tier, withUnread_initd, regionFault_withUnread, emitBlocking_withUnread]
  split
  · exact raised_withUnread _
  · split
    · exact raised_withUnread _
    · split
      · exact raised_withUnread _
      · split
        · exact raised_withUnread _
        · rfl

theorem execWsOuta_withUnread (data count : Nat) (gamma : Option Nat) :
    execWsOuta data count gamma (s.withUnread fOut fClk gap) =
      mapNext (State.withUnread fOut fClk gap) (execWsOuta data count gamma s) := by
  refine running_withUnread ?_
  rw [withUnread_tier, withUnread_initd, withUnread_engine, regionFault_withUnread, armTransfer_withUnread]
  split
  · exact raised_withUnread _
  · split
    · exact raised_withUnread _
    · split
      · exact raised_withUnread _
      · split
        · rfl
        · split
          · exact raised_withUnread _
          · rfl

theorem execWsCheck_withUnread : execWsCheck (s.withUnread fOut fClk gap) =
    mapNext (State.withUnread fOut fClk gap) (execWsCheck s) := by
  refine running_withUnread ?_
  rw [withUnread_tier, withUnread_initd]
  split
  · exact raised_withUnread _
  · split
    · exact raised_withUnread _
    · rfl

theorem exec_withUnread (i : Instr) : exec i (s.withUnread fOut fClk gap) =
    mapNext (State.withUnread fOut fClk gap) (exec i s) := by
  cases i with
  | wsInit => exact execWsInit_withUnread
  | wsOut data count gamma => exact execWsOut_withUnread data count gamma
  | wsOuta data count gamma => exact execWsOuta_withUnread data count gamma
  | wsCheck => exact execWsCheck_withUnread

theorem hostCommand_withUnread (w : Nat) : hostCommand w (s.withUnread fOut fClk gap) =
    mapNext (State.withUnread fOut fClk gap) (hostCommand w s) := by
  rw [hostCommand, hostCommand, decode_withUnread]
  split
  · exact exec_withUnread _
  · exact raised_withUnread _

theorem hostWrite_withUnread (space : Space) (a : Nat) (v : Byte) :
    hostWrite space a v (s.withUnread fOut fClk gap) =
      mapNext (State.withUnread fOut fClk gap) (hostWrite space a v s) := by
  have hborrowed : (s.withUnread fOut fClk gap).borrowed .data a = s.borrowed .data a := rfl
  cases space with
  | const => rfl
  | data =>
    rw [hostWrite, hostWrite, spaceSize_withUnread, hborrowed]
    split
    · rfl
    · split
      · exact raised_withUnread _
      · rfl

theorem hostRead_withUnread (space : Space) (a : Nat) :
    hostRead space a (s.withUnread fOut fClk gap) =
      mapNext (State.withUnread fOut fClk gap) (hostRead space a s) := by
  rw [hostRead, hostRead, spaceSize_withUnread, readable_withUnread]
  split
  · rfl
  · split <;> rfl

theorem hostStep_withUnread (a : HostAction) : hostStep a (s.withUnread fOut fClk gap) =
    mapNext (State.withUnread fOut fClk gap) (hostStep a s) := by
  cases a with
  | command w => exact hostCommand_withUnread (s := withoutReply s) w
  | write space addr v => exact hostWrite_withUnread (s := withoutReply s) space addr v
  | read space addr => exact hostRead_withUnread (s := withoutReply s) space addr

theorem agentStep_withUnread : agentStep (s.withUnread fOut fClk gap) =
    mapNext (State.withUnread fOut fClk gap) (agentStep s) := by
  rw [agentStep, agentStep, withUnread_inputs]
  split
  next =>
    exact running_withUnread (congrArg Host.Outcome.next engineSlot_withUnread)
  next rest _ =>
    exact running_withUnread (congrArg Host.Outcome.next (engineSlot_withUnread (s := takeEvent rest s)))
  next a rest _ =>
    exact running_withUnread (hostStep_withUnread (s := takeEvent rest s) a)
  next => rfl

end

/-- Settles O33: the check of the profile reads none of the three, and the event taken is the same. -/
theorem unreadParametersHaveNoEffect : Obligations.UnreadParametersHaveNoEffect := by
  intro s fOut fClk gap
  cases hl : legalProfile s.cfg.profile with
  | true => rw [step_of_legal hl, step_of_legal (s := s.withUnread fOut fClk gap) hl, agentStep_withUnread]
  | false => rw [step_of_illegal hl, step_of_illegal (s := s.withUnread fOut fClk gap) hl]; rfl

end Sys2Proof.Machine
